-- ==== Sys2Proof/Word.lean ====
section
/-!
DEFINITION. The words, widths and named selections of FNV1A-CORE (00_scope R7, 10_state R19 to R22, R26).
-/

namespace Sys2Proof

/-- A byte, the operand of the Byte Mixer (R61). -/
abbrev Byte := BitVec 8

/-- A 64-bit value: ACC, PTR, REM and the operands opa and opb (R7). -/
abbrev Word := BitVec 64

/-- The 32-bit command word (R7, R54). -/
abbrev CmdWord := BitVec 32

/-- The state width W, 32 or 64 bits (R7, R20). -/
inductive Width where
  | w32
  | w64
  deriving DecidableEq, Repr, Inhabited

/-- W as a number of bits. -/
abbrev Width.bits : Width → Nat
  | .w32 => 32
  | .w64 => 64

/-- The code-unit width cu_width: 8, 16 or 32 bits (R7, R21). CUW = 3 is never held, so it has no constructor. -/
inductive CuWidth where
  | cu8
  | cu16
  | cu32
  deriving DecidableEq, Repr, Inhabited

/-- The pseudocode's `cuw`: cu_width in bits (R21). -/
abbrev CuWidth.bits : CuWidth → Nat
  | .cu8 => 8
  | .cu16 => 16
  | .cu32 => 32

/-- The pseudocode's `nb = cuw / 8`: the bytes of one code unit (R21). -/
abbrev CuWidth.nb : CuWidth → Nat
  | .cu8 => 1
  | .cu16 => 2
  | .cu32 => 4

/-- The transform a computation uses (R22, R58). -/
inductive Xform where
  | identity
  | asciiToLower
  | asciiToUpper
  | user
  deriving DecidableEq, Repr, Inhabited

/-- The configuration CFG = (W, CUW, XF), also the CF field of a command word (R19, R54). It is written only as a
whole. -/
structure Cfg where
  w : Width
  cu : CuWidth
  xf : Xform
  deriving DecidableEq, Repr, Inhabited

/-- STATUS.MODE: the termination style of the current or last scan (R26). -/
inductive ScanMode where
  | sized
  | terminated
  deriving DecidableEq, Repr, Inhabited

end Sys2Proof
end

