-- ==== Sys2Proof/Config.lean ====
section
/-!
DEFINITION. The parameters the spec leaves open to the implementation, and the model's free values. None of them has
a body: nothing can be proved of their values, so every theorem holds for all of them.
-/

namespace Sys2Proof

/-- NATIVE_W (R8): the width of the reset configuration. -/
opaque Config.nativeW : Width

/-- HAS_XF_USER (R9): whether transform code 3 is implemented. -/
opaque Config.hasXfUser : Bool

/-- XF_USER(cuw, v) (R9): total, pure and width-preserving; nothing else may be assumed of it. -/
opaque Config.xfUser : (cu : CuWidth) → BitVec cu.bits → BitVec cu.bits

/-- How many instances the platform has beyond the first; R10 asks for at least one. -/
opaque Config.moreInstances : Nat

/-- N_INST >= 1 (R10). -/
def Config.nInst : Nat := Config.moreInstances + 1

/-- DESIGN CHOICE (log entries 4 and 19). The free value of the `n`-th draw: what a read of a unit returns when another
agent has written it during the scan, any cuw-bit value (R49). Safe while no two reads take the same `n`: the instances
of a platform take their numbers from one counter, `Platform.draws`. Unsafe for a comparison of two separate runs, or
of two states stepped apart from a platform, whose draws of one number and width are the same value. -/
opaque Config.draw : (cu : CuWidth) → Nat → BitVec cu.bits

end Sys2Proof
end

