-- ==== Sys2Proof/Machine/Rom.lean ====
section
/-!
DEFINITION. The constant ROM: the hash parameters keyed by W (R30). Nothing writes it and reset does not affect it.
-/

namespace Sys2Proof.Machine

/-- PRIME(W) (R30). -/
def prime : (w : Width) → BitVec w.bits
  | .w32 => 0x01000193#32
  | .w64 => 0x00000100000001B3#64

/-- BASIS(W) (R30). -/
def basis : (w : Width) → BitVec w.bits
  | .w32 => 0x811C9DC5#32
  | .w64 => 0xCBF29CE484222325#64

end Sys2Proof.Machine
end

