-- ==== Sys2Proof/Syntax.lean ====
section
/-!
DEFINITION. The commands: one constructor of `Instr` for each row of spec/opcode_table.json (R55), with the operands
that row reads, and `Command`, one transaction of the command port (R53).
-/

namespace Sys2Proof

/-- One transaction on the command port: the command word and the two operands (R33, R53). -/
structure Command where
  cmd : CmdWord
  opa : Word
  opb : Word
  deriving DecidableEq, Repr, Inhabited

/-- A legal command with the operands it reads (R55). An operand the table calls ignored is no argument; of an operand
the table reads in part the whole word is kept, and the meaning takes the part (R60, R61, R63). -/
inductive Instr where
  /-- R84. -/
  | nop
  /-- R85: CF = cmd[8:4]. -/
  | init (cf : Cfg)
  /-- R74: the byte is opa[7:0]. -/
  | mixb (opa : Word)
  /-- R86: the code unit is opa[cuw-1:0]. -/
  | unit (opa : Word)
  /-- R94: start = opa, len = opb. -/
  | scann (start len : Word)
  /-- R97: start = opa. -/
  | scanz (start : Word)
  /-- R100: CF, start = opa, len = opb. -/
  | hashn (cf : Cfg) (start len : Word)
  /-- R101: CF, start = opa. -/
  | hashz (cf : Cfg) (start : Word)
  deriving DecidableEq, Repr, Inhabited

end Sys2Proof
end

