-- ==== Sys2Proof/Machine/State.lean ====
section
/-!
DEFINITION. The state of one instance of FNV1A-CORE, its reset value, and the reasons a step can stop. `State` is
plain data: the registers of R15, the ports and the environment of R33 to R38, and the model's draw counter.
-/

namespace Sys2Proof.Machine

/-- The reasons the machine has no next state. -/
inductive Fault where
  /-- Raised by a scan step whose read is at a unit address the input view does not admit. The spec calls the block
  stuck there: it has no enabled step, and only reset leaves the state (R40, R105, R111). SAFE: nothing follows from a
  run that stops, and asserting rst in the stopped state gives the reset step. -/
  | stuckUnadmittedRead
  deriving DecidableEq, Repr

/-- The reasons an instruction is not run. -/
inductive Refusal where
  /-- An instruction without a meaning in the model; raised by no arm of `exec`. SAFE. -/
  | notModelled (mnemonic : String)
  deriving DecidableEq, Repr

/-- STATUS[2:0] (R23): BUSY = STATUS[0], ILL = STATUS[1], MODE = STATUS[2]. -/
structure Status where
  busy : Bool
  ill : Bool
  mode : ScanMode
  deriving DecidableEq, Repr

/-- The input view IV (R38). For each code-unit width, the admitted unit addresses, strictly rising, each with its
value; an address that is not listed is not admitted. Units are held as values, so the open INPUT_LAYOUT plays no part
(R42, log entry 6). -/
structure InputView where
  cu8 : List Host.Cell
  cu16 : List (Nat × BitVec 16)
  cu32 : List (Nat × BitVec 32)
  deriving DecidableEq, Repr

structure State where
  /-- ACC[63:0], the Hash State (R17). -/
  acc : Word
  /-- CFG[4:0], the configuration of the current computation (R19). -/
  cfg : Cfg
  /-- STATUS[2:0] (R23). -/
  status : Status
  /-- PTR[63:0], the unit address of the next unit a scan reads (R28). -/
  ptr : Word
  /-- REM[63:0], the units left in an explicit-length scan (R29). -/
  rem : Word
  /-- The reset input: whether the host asserts rst in the coming step (R125; DESIGN CHOICE, log entry 2). -/
  rst : Bool
  /-- The commands the host presents, in order: the first is on the command port (cmd_valid = 1 exactly when there is
  one) and is held there until it is accepted (R33; DESIGN CHOICE, log entry 1). -/
  pending : List Command
  /-- The input view the host supplies (R38). -/
  view : InputView
  /-- The unit addresses, strictly rising, whose value another agent has changed since the scan began while the scan
  might still read them: a read there is a draw (R49; DESIGN CHOICE, log entry 4). -/
  racing : List Nat
  /-- The MODEL's counter of draws taken, which picks the next free value (DESIGN CHOICE, log entries 4
  and 19). -/
  draws : Nat
  deriving DecidableEq, Repr

/-- The registers after reset as R36 and R125 give them, for a given NATIVE_W, beside a given environment: reset
writes the registers of R15 and nothing else. -/
def State.resetIn (native : Width) (pending : List Command) (view : InputView) (racing : List Nat) (draws : Nat) :
    State :=
  { acc := (basis native).setWidth 64
    cfg := { w := native, cu := .cu8, xf := .identity }
    status := { busy := false, ill := false, mode := .sized }
    ptr := 0
    rem := 0
    rst := false
    pending := pending
    view := view
    racing := racing
    draws := draws }

/-- The machine after reset for a given NATIVE_W (R36): nothing presented, nothing in the input view (DESIGN CHOICE,
log entries 1 to 4). -/
def State.resetWith (native : Width) : State :=
  State.resetIn native [] { cu8 := [], cu16 := [], cu32 := [] } [] 0

/-- The machine right after reset on this implementation (R36, R125). -/
def State.reset : State := State.resetWith Config.nativeW

end Sys2Proof.Machine
end

