-- ==== Sys2Proof/Machine/Ops.lean ====
section
/-!
DEFINITION. The named operations every meaning is built from: the input view and its one read (R38 to R40, R49), the
accumulator at width CFG.W (R17, R18), taking the one fault IllegalCommand (R109), reset (R125), the command port
(R33) and the iterator registers (R27 to R29).
-/

namespace Sys2Proof.Machine

/-! ### Cells by unit address -/

/-- The value listed at an address. -/
def lookupCell {α : Type} (a : Nat) : List (Nat × α) → Option α
  | [] => none
  | (k, v) :: rest => if k = a then some v else lookupCell a rest

/-- List a value at an address, in place of the one listed there if any, keeping the addresses rising. -/
def insertCell {α : Type} (a : Nat) (v : α) : List (Nat × α) → List (Nat × α)
  | [] => [(a, v)]
  | (k, u) :: rest =>
    if a < k then (a, v) :: (k, u) :: rest
    else if a = k then (a, v) :: rest
    else (k, u) :: insertCell a v rest

/-- The listed addresses stay, each with the value another list gives it, if it gives one. -/
def revalueCells {α : Type} (new : List (Nat × α)) (old : List (Nat × α)) : List (Nat × α) :=
  old.map fun c => (c.1, (lookupCell c.1 new).getD c.2)

/-- The addresses rise strictly, from `lo` on, and stay below 2^64 (R38). -/
def cellsRise {α : Type} (lo : Nat) : List (Nat × α) → Bool
  | [] => true
  | (k, _) :: rest => decide (lo ≤ k) && decide (k < 2 ^ 64) && cellsRise (k + 1) rest

/-- Add an address to a rising list of addresses. -/
def insertAddr (a : Nat) : List Nat → List Nat
  | [] => [a]
  | k :: rest =>
    if a < k then a :: k :: rest
    else if a = k then k :: rest
    else k :: insertAddr a rest

/-- A list of addresses rises strictly, from `lo` on, and stays below 2^64. -/
def addrsRise (lo : Nat) : List Nat → Bool
  | [] => true
  | k :: rest => decide (lo ≤ k) && decide (k < 2 ^ 64) && addrsRise (k + 1) rest

/-! ### The input view (R38) -/

/-- The admitted units of one code-unit width. -/
def cells (iv : InputView) : (cu : CuWidth) → List (Nat × BitVec cu.bits)
  | .cu8 => iv.cu8
  | .cu16 => iv.cu16
  | .cu32 => iv.cu32

/-- The view with the units of one width replaced. -/
def withCells (iv : InputView) : (cu : CuWidth) → List (Nat × BitVec cu.bits) → InputView
  | .cu8, l => { iv with cu8 := l }
  | .cu16, l => { iv with cu16 := l }
  | .cu32, l => { iv with cu32 := l }

/-- Val(cuw, a) where Adm(cuw, a) holds, else nothing: an address that is not listed has no value. -/
def viewUnit (iv : InputView) (cu : CuWidth) (a : Word) : Option (BitVec cu.bits) :=
  lookupCell a.toNat (cells iv cu)

/-- Adm(cuw, a) (R38). -/
def admits (iv : InputView) (cu : CuWidth) (a : Word) : Bool := (viewUnit iv cu a).isSome

/-- The view with Val(cuw, a) = v and Adm(cuw, a). -/
def putUnit (iv : InputView) (cu : CuWidth) (a : Word) (v : BitVec cu.bits) : InputView :=
  withCells iv cu (insertCell a.toNat v (cells iv cu))

/-- The units admitted by one view, with the values another view gives them, if it gives any. -/
def revalueView (new : InputView) (old : InputView) : InputView :=
  { cu8 := revalueCells new.cu8 old.cu8
    cu16 := revalueCells new.cu16 old.cu16
    cu32 := revalueCells new.cu32 old.cu32 }

/-- The canonical form of the input view: in each width the addresses rise strictly and are unit addresses. -/
def Memory.wf (iv : InputView) : Bool :=
  cellsRise 0 iv.cu8 && cellsRise 0 iv.cu16 && cellsRise 0 iv.cu32

/-- UnitRead(a, nb) (R40), with the draw counter after it: nothing at an unadmitted address, and a draw where another
agent has changed the unit during the scan (R49). -/
def unitRead (s : State) (cu : CuWidth) (a : Word) : Option (BitVec cu.bits × Nat) :=
  match viewUnit s.view cu a with
  | none => none
  | some v => if a.toNat ∈ s.racing then some (Config.draw cu s.draws, s.draws + 1) else some (v, s.draws)

/-! ### The accumulator (R17, R18) -/

/-- ACC[W-1:0]. -/
def accAt (w : Width) (acc : Word) : BitVec w.bits := acc.setWidth w.bits

/-- zext_64 of a W-bit value (R11). -/
def zext64 {w : Width} (v : BitVec w.bits) : Word := v.setWidth 64

/-- Start a computation: CFG <- cf, ACC <- zext_64(BASIS(W)) (R85; also the first half of R100 and R101). -/
def beginComputation (cf : Cfg) (s : State) : State :=
  { s with cfg := cf, acc := zext64 (basis cf.w) }

/-! ### The iterator registers (R27 to R29) -/

/-- Start a scan: PTR, REM, STATUS.MODE, and STATUS.BUSY <- 1 (R94, R97). The marks of racing writes are those of one
scan, so a new scan begins with none (log entry 4). -/
def startScan (mode : ScanMode) (start len : Word) (s : State) : State :=
  { s with
    ptr := start
    rem := len
    status := { s.status with mode := mode, busy := true }
    racing := [] }

/-- End a scan: STATUS.BUSY <- 0 (R95, R99). -/
def endScan (s : State) : State :=
  { s with status := { s.status with busy := false } }

/-! ### The one fault, and reset -/

/-- raise IllegalCommand() (R109): STATUS.ILL <- 1 and nothing else. There is no trap entry and no return from one
(R117, R118). -/
def raiseIllegal (s : State) : State :=
  { s with status := { s.status with ill := true } }

/-- The reset step (R125): every register takes its reset value. The environment (commands still presented, the input
view, the marks on it, the draws taken) is not the block's to change, and the one-step request rst is answered. -/
def resetStep (s : State) : State :=
  State.resetIn Config.nativeW s.pending s.view s.racing s.draws

/-! ### The command port (R33) -/

/-- cmd_ready = NOT STATUS.BUSY (R33). -/
def cmdReady (s : State) : Bool := !s.status.busy

/-- The command on the port, if cmd_valid = 1 (R33). -/
def presented (s : State) : Option Command := s.pending.head?

/-- The state with the command on the port accepted: the host presents the next one. -/
def acceptCommand (s : State) : State := { s with pending := s.pending.tail }

/-- The state in which the coming step accepts and runs `c`: the port shows `c` before what the host presents next,
the block is not busy (R33) and rst is not asserted (R116). -/
def presentNext (c : Command) (s : State) : State :=
  { s with
    pending := c :: s.pending
    status := { s.status with busy := false }
    rst := false }

end Sys2Proof.Machine
end

