-- ==== Sys2Proof/Machine/Operands.lean ====
section
/-!
DEFINITION. Operand assembly (R60): plain unsigned fields of opa; every other operand bit is ignored.
-/

namespace Sys2Proof.Machine

/-- MIXB's byte, opa[7:0] (R61). -/
def byteOperand (opa : Word) : Byte := opa.setWidth 8

/-- UNIT's code unit, opa[cuw-1:0], with cuw from the latched CFG.CUW (R63). -/
def unitOperand (cu : CuWidth) (opa : Word) : BitVec cu.bits := opa.setWidth cu.bits

end Sys2Proof.Machine
end

