-- ==== Sys2Proof/Machine/ByteMixer.lean ====
section
/-!
DEFINITION. The Byte Mixer (40_byte_mixer) and MIXB.
-/

namespace Sys2Proof.Machine

/-- mix(W, s, b) = ((s XOR zext_W(b)) * PRIME(W)) mod 2^W (R71, R72). It reads only its arguments (R73). -/
def mix (w : Width) (s : BitVec w.bits) (b : Byte) : BitVec w.bits :=
  (s ^^^ b.setWidth w.bits) * prime w

/-- MIXB (R74): mix one raw byte into ACC, with no transform and no decomposition. -/
def execMixb (opa : Word) (s : State) : Host.Outcome State Fault Refusal :=
  .next { s with acc := zext64 (mix s.cfg.w (accAt s.cfg.w s.acc) (byteOperand opa)) }

end Sys2Proof.Machine
end

