-- ==== Sys2Proof/Machine/HashEngine.lean ====
section
/-!
DEFINITION. The Hash Engine (41_hash_engine): transforms, the code-unit decomposer, the per-unit feed and the fold,
and the commands NOP, INIT and UNIT.
-/

namespace Sys2Proof.Machine

/-! ### Transforms (R76 to R80) -/

/-- ascii_tolower on a whole n-bit code-unit value (R78). -/
def asciiToLower {n : Nat} (v : BitVec n) : BitVec n :=
  if 0x41 ≤ v.toNat ∧ v.toNat ≤ 0x5A then v + BitVec.ofNat n 0x20 else v

/-- ascii_toupper on a whole n-bit code-unit value (R79). -/
def asciiToUpper {n : Nat} (v : BitVec n) : BitVec n :=
  if 0x61 ≤ v.toNat ∧ v.toNat ≤ 0x7A then v - BitVec.ofNat n 0x20 else v

/-- xf(XF, cuw, v) (R80). -/
def transform (x : Xform) (cu : CuWidth) (v : BitVec cu.bits) : BitVec cu.bits :=
  match x with
  | .identity => v
  | .asciiToLower => asciiToLower v
  | .asciiToUpper => asciiToUpper v
  | .user => Config.xfUser cu v

/-! ### Decomposition, feed and fold (R81 to R83) -/

/-- bytes(cuw, v): bytes(cuw, v)[k] = v[8k+7:8k], k rising, so the low byte first (R81). -/
def unitBytes (cu : CuWidth) (v : BitVec cu.bits) : List Byte :=
  (List.range cu.nb).map fun k => v.extractLsb' (8 * k) 8

/-- feed(W, cuw, XF, s, u): transform, decompose, mix each byte in order (R82). -/
def feed (w : Width) (cu : CuWidth) (x : Xform) (s : BitVec w.bits) (u : BitVec cu.bits) : BitVec w.bits :=
  (unitBytes cu (transform x cu u)).foldl (mix w) s

/-- hash(W, cuw, XF, units): the fold of feed from the offset basis (R83). -/
def hashUnits (w : Width) (cu : CuWidth) (x : Xform) (units : List (BitVec cu.bits)) : BitVec w.bits :=
  units.foldl (feed w cu x) (basis w)

/-- ACC after feeding one code unit under a configuration: zext_64(feed(W, cuw, XF, ACC[W-1:0], u)) (R86, R95,
R99). -/
def feedAcc (cf : Cfg) (acc : Word) (u : BitVec cf.cu.bits) : Word :=
  zext64 (feed cf.w cf.cu cf.xf (accAt cf.w acc) u)

/-! ### Commands -/

/-- NOP (R84): no state change. -/
def execNop (s : State) : Host.Outcome State Fault Refusal := .next s

/-- INIT (R85): latch the configuration and load the offset basis. -/
def execInit (cf : Cfg) (s : State) : Host.Outcome State Fault Refusal := .next (beginComputation cf s)

/-- UNIT (R86): feed one code unit supplied in opa. -/
def execUnit (opa : Word) (s : State) : Host.Outcome State Fault Refusal :=
  .next { s with acc := feedAcc s.cfg s.acc (unitOperand s.cfg.cu opa) }

end Sys2Proof.Machine
end

