-- ==== Sys2Proof/Machine/Iterator.lean ====
section
/-!
DEFINITION. The byte-sequence iterator (42_iterator): the commands SCANN, SCANZ, HASHN and HASHZ, and the scan step.
-/

namespace Sys2Proof.Machine

/-! ### Commands -/

/-- SCANN (R94): continue the computation with an explicit-length scan of len units. -/
def execScann (start len : Word) (s : State) : Host.Outcome State Fault Refusal :=
  .next (startScan .sized start len s)

/-- SCANZ (R97): continue the computation with a sentinel-terminated scan; REM <- 0. -/
def execScanz (start : Word) (s : State) : Host.Outcome State Fault Refusal :=
  .next (startScan .terminated start 0 s)

/-- HASHN (R100): start a computation and an explicit-length scan in one step. -/
def execHashn (cf : Cfg) (start len : Word) (s : State) : Host.Outcome State Fault Refusal :=
  .next (startScan .sized start len (beginComputation cf s))

/-- HASHZ (R101): start a computation and a sentinel-terminated scan in one step. -/
def execHashz (cf : Cfg) (start : Word) (s : State) : Host.Outcome State Fault Refusal :=
  .next (startScan .terminated start 0 (beginComputation cf s))

/-! ### The scan step (R93) -/

/-- The effect of mixing the unit just read: ACC takes the feed of u and PTR advances modulo 2^64 (R95, R99). -/
def mixRead (s : State) (u : BitVec s.cfg.cu.bits) : State :=
  { s with acc := feedAcc s.cfg s.acc u, ptr := s.ptr + 1 }

/-- One step of a sized scan (R95). -/
def sizedStep (s : State) : Host.Outcome State Fault Refusal :=
  if s.rem = 0 then .next (endScan s)
  else match unitRead s s.cfg.cu s.ptr with
    | none => .fault .stuckUnadmittedRead
    | some (u, d) => .next { mixRead s u with rem := s.rem - 1, draws := d }

/-- One step of a terminated scan (R99): the raw unit is compared with the sentinel 0 before any transform (R98). -/
def terminatedStep (s : State) : Host.Outcome State Fault Refusal :=
  match unitRead s s.cfg.cu s.ptr with
  | none => .fault .stuckUnadmittedRead
  | some (u, d) => if u = 0 then .next { endScan s with draws := d } else .next { mixRead s u with draws := d }

/-- One scan step, enabled only while STATUS.BUSY = 1 (R93). -/
def scanStep (s : State) : Host.Outcome State Fault Refusal :=
  match s.status.mode with
  | .sized => sizedStep s
  | .terminated => terminatedStep s

end Sys2Proof.Machine
end

