-- ==== Sys2Proof/Machine/Dispatch.lean ====
section
/-!
DEFINITION. One arm per command: the effect of accepting it in one atomic step (R13, R33).
-/

namespace Sys2Proof.Machine

def exec (i : Instr) (s : State) : Host.Outcome State Fault Refusal :=
  match i with
  | .nop => Sys2Proof.Machine.execNop s
  | .init cf => Sys2Proof.Machine.execInit cf s
  | .mixb opa => Sys2Proof.Machine.execMixb opa s
  | .unit opa => Sys2Proof.Machine.execUnit opa s
  | .scann start len => Sys2Proof.Machine.execScann start len s
  | .scanz start => Sys2Proof.Machine.execScanz start s
  | .hashn cf start len => Sys2Proof.Machine.execHashn cf start len s
  | .hashz cf start => Sys2Proof.Machine.execHashz cf start s

end Sys2Proof.Machine
end

