-- ==== Sys2Proof/Decode.lean ====
section
/-!
DEFINITION. Decoding a transaction of the command port (R54, R62, R67), total on all words and rejecting by name, and
after it the encoder written from the same tables (R54, R55, R70).
-/

namespace Sys2Proof

/-- Why a word is illegal (the conditions of R110). All of them raise the one IllegalCommand, so which is named when
several hold cannot be observed (R116). -/
inductive IllegalReason where
  /-- RSV = cmd[31:9] is not 0 (R59). -/
  | reservedBits
  /-- OP is 0x8 to 0xF (R65). -/
  | reservedOp
  /-- CF is not 0 on an operation that takes none (R62). -/
  | configOnPlainOp
  /-- CUW = 3 (R57). -/
  | unitWidth
  /-- XF = 3 and HAS_XF_USER = false (R58). -/
  | userTransform
  deriving DecidableEq, Repr

/-- What a transaction decodes to: exactly one command, or illegal (R67). -/
inductive Decoded where
  | command (i : Instr)
  | illegal (r : IllegalReason)
  deriving DecidableEq, Repr

/-! ### Fields of the command word (R54) -/

/-- OP = cmd[3:0]. -/
def opField (c : CmdWord) : BitVec 4 := c.extractLsb' 0 4

/-- CF = cmd[8:4], laid out like CFG[4:0]. -/
def cfField (c : CmdWord) : BitVec 5 := c.extractLsb' 4 5

/-- RSV = cmd[31:9]. -/
def rsvField (c : CmdWord) : BitVec 23 := c.extractLsb' 9 23

/-- W, bit 0 of CF: 0 = 32, 1 = 64 (R56). -/
def widthOfBit (b : Bool) : Width := if b then .w64 else .w32

/-- CUW, bits 2:1 of CF: 0 = 8, 1 = 16, 2 = 32, 3 illegal (R57). -/
def cuWidthOfBits (b : BitVec 2) : Option CuWidth :=
  match b.toNat with
  | 0 => some .cu8
  | 1 => some .cu16
  | 2 => some .cu32
  | _ => none

/-- XF, bits 4:3 of CF (R58). -/
def xformOfBits (b : BitVec 2) : Xform :=
  match b.toNat with
  | 0 => .identity
  | 1 => .asciiToLower
  | 2 => .asciiToUpper
  | _ => .user

/-- A configuration from the CF field, or the reason it is illegal (R57, R58, R62). -/
def cfgOfBits (hasUser : Bool) (cf : BitVec 5) : Except IllegalReason Cfg :=
  match cuWidthOfBits (cf.extractLsb' 1 2) with
  | none => .error .unitWidth
  | some cu =>
    let xf := xformOfBits (cf.extractLsb' 3 2)
    if xf = .user ∧ hasUser = false then .error .userTransform
    else .ok { w := widthOfBit (cf.getLsbD 0), cu := cu, xf := xf }

/-- An operation that takes no configuration: CF must be 0 (R62). -/
def decodePlain (cf : BitVec 5) (i : Instr) : Decoded :=
  if cf = 0 then .command i else .illegal .configOnPlainOp

/-- An operation that carries a configuration (R62). -/
def decodeConfig (hasUser : Bool) (cf : BitVec 5) (mk : Cfg → Instr) : Decoded :=
  match cfgOfBits hasUser cf with
  | .ok cfg => .command (mk cfg)
  | .error r => .illegal r

/-- Decode, for a given HAS_XF_USER (R67, R70). -/
def decodeWith (hasUser : Bool) (c : Command) : Decoded :=
  let cf := cfField c.cmd
  if rsvField c.cmd ≠ 0 then .illegal .reservedBits
  else match (opField c.cmd).toNat with
    | 0 => decodePlain cf .nop
    | 1 => decodeConfig hasUser cf fun g => .init g
    | 2 => decodePlain cf (.mixb c.opa)
    | 3 => decodePlain cf (.unit c.opa)
    | 4 => decodePlain cf (.scann c.opa c.opb)
    | 5 => decodePlain cf (.scanz c.opa)
    | 6 => decodeConfig hasUser cf fun g => .hashn g c.opa c.opb
    | 7 => decodeConfig hasUser cf fun g => .hashz g c.opa
    | _ => .illegal .reservedOp

/-- Decode on this implementation (R67). -/
def decode (c : Command) : Decoded := decodeWith Config.hasXfUser c

/-- A transaction laid out as one number, as spec/opcode_table.json numbers bits: cmd is bits 31..0, then opa is bits
95..32 and opb bits 159..96; every bit from `nbits` up is 0. -/
def commandOfBits (nbits w : Nat) : Command :=
  let v := w % 2 ^ nbits
  { cmd := BitVec.ofNat 32 v, opa := BitVec.ofNat 64 (v / 2 ^ 32), opb := BitVec.ofNat 64 (v / 2 ^ 96) }

/-- The command an instruction word of the opcode table stands for. -/
def decodeTableWord (nbits w : Nat) : Option Instr :=
  match decode (commandOfBits nbits w) with
  | .command i => some i
  | .illegal _ => none

/-! ### The encoder -/

/-- W as a bit (R56). -/
def bitOfWidth : Width → BitVec 1
  | .w32 => 0
  | .w64 => 1

/-- CUW (R57). -/
def bitsOfCuWidth : CuWidth → BitVec 2
  | .cu8 => 0
  | .cu16 => 1
  | .cu32 => 2

/-- XF (R58). -/
def bitsOfXform : Xform → BitVec 2
  | .identity => 0
  | .asciiToLower => 1
  | .asciiToUpper => 2
  | .user => 3

/-- CFG[4:0]: XF in bits 4:3, CUW in bits 2:1, W in bit 0 (R19). -/
def cfgBits (cf : Cfg) : BitVec 5 :=
  bitsOfXform cf.xf ++ bitsOfCuWidth cf.cu ++ bitOfWidth cf.w

/-- The command word with RSV = 0, the given CF and OP (R54). -/
def cmdWord (cf : BitVec 5) (op : BitVec 4) : CmdWord := (0#23 ++ cf ++ op : BitVec 32)

/-- The transaction that stands for a command: its word and the operands it reads (R54, R55). R55 has the other operands
ignored and gives them no value; writing them as 0 is DESIGN CHOICE, log entry 21. -/
def encode : Instr → Command
  | .nop => { cmd := cmdWord 0 0, opa := 0, opb := 0 }
  | .init cf => { cmd := cmdWord (cfgBits cf) 1, opa := 0, opb := 0 }
  | .mixb opa => { cmd := cmdWord 0 2, opa := opa, opb := 0 }
  | .unit opa => { cmd := cmdWord 0 3, opa := opa, opb := 0 }
  | .scann start len => { cmd := cmdWord 0 4, opa := start, opb := len }
  | .scanz start => { cmd := cmdWord 0 5, opa := start, opb := 0 }
  | .hashn cf start len => { cmd := cmdWord (cfgBits cf) 6, opa := start, opb := len }
  | .hashz cf start => { cmd := cmdWord (cfgBits cf) 7, opa := start, opb := 0 }

end Sys2Proof
end

