-- ==== Sys2Proof/Machine/Flags.lean ====
section
/-!
DEFINITION. The status bits and the output ports. The block has no condition codes and no arithmetic flags (R31); its
only status bits are those of STATUS, and the host sees every register on an output port (R35).
-/

namespace Sys2Proof.Machine

/-- STATUS.MODE as a bit: 0 for an explicit-length scan, 1 for a sentinel-terminated one (R26). -/
def modeBit : ScanMode → BitVec 1
  | .sized => 0
  | .terminated => 1

/-- status_out[2:0] = STATUS: MODE in bit 2, ILL in bit 1, BUSY in bit 0 (R23, R35). -/
def statusOut (s : State) : BitVec 3 :=
  modeBit s.status.mode ++ BitVec.ofBool s.status.ill ++ BitVec.ofBool s.status.busy

/-- cfg_out[4:0] = CFG (R19, R35). -/
def cfgOut (s : State) : BitVec 5 := cfgBits s.cfg

/-- hash_out[63:0] = ACC (R35). -/
def hashOut (s : State) : Word := s.acc

/-- ptr_out[63:0] = PTR (R35). -/
def ptrOut (s : State) : Word := s.ptr

/-- rem_out[63:0] = REM (R35). -/
def remOut (s : State) : Word := s.rem

end Sys2Proof.Machine
end

