-- ==== Sys2Proof/Machine/Step.lean ====
section
/-!
DEFINITION. One atomic step of the block (R13): reset, which takes precedence over everything (R116); else a scan
step while STATUS.BUSY = 1 (R93); else the acceptance of the command on the port (R33). With none of these the block
takes no step and its state does not change (R124).
-/

namespace Sys2Proof.Machine

/-- Accept the command on the port: run it if it is legal, raise IllegalCommand if it is not (R62, R67). -/
def commandStep (c : Command) (s : State) : Host.Outcome State Fault Refusal :=
  match decode c with
  | .illegal _ => .next (raiseIllegal (acceptCommand s))
  | .command i => exec i (acceptCommand s)

def step (s : State) : Host.Outcome State Fault Refusal :=
  if s.rst then .next (resetStep s)
  else if s.status.busy then scanStep s
  else match presented s with
    | none => .next s
    | some c => commandStep c s

/-- `s` with the transaction whose bits are `w` on the command port, so that the coming step accepts it. -/
def State.withFetchWord (s : State) (nbits w : Nat) : State := presentNext (commandOfBits nbits w) s

end Sys2Proof.Machine
end

