-- ==== Sys2Proof/Machine/Assembler.lean ====
section
/-!
DEFINITION. The assembler notation of R68 and R69, which writes commands for the command port: the lines, the
pseudo-commands, and the text form. It is notation of the host's side and no part of the block.
-/

namespace Sys2Proof.Machine

/-- One line: a command or a pseudo-command, with the numbers as they are written. -/
inductive AsmLine where
  | nop
  | init (cf : Cfg)
  | mixb (byte : Nat)
  | unit (value : Nat)
  | scann (addr len : Nat)
  | scanz (addr : Nat)
  | hashn (cf : Cfg) (addr len : Nat)
  | hashz (cf : Cfg) (addr : Nat)
  | units (values : List Nat)
  | mixbs (bytes : List Nat)
  | unitstr (chars : List Char)
  | hashv (cf : Cfg) (values : List Nat)
  deriving DecidableEq, Repr

/-- A number as an operand, zero-extended; the assembler refuses a number that does not fit in 64 bits (R68). -/
def asmWord (n : Nat) : Option Word := if n < 2 ^ 64 then some (BitVec.ofNat 64 n) else none

/-- A byte as an operand; the assembler refuses a byte above 255 rather than truncating it (R68). -/
def asmByte (n : Nat) : Option Word := if n < 256 then some (BitVec.ofNat 64 n) else none

/-- The ASCII code of a character; a character without one is refused (R68, R69). -/
def asmChar (c : Char) : Option Nat := if c.toNat < 128 then some c.toNat else none

/-- All of some results, or nothing if one is missing. -/
def allOf {α β : Type} (f : α → Option β) : List α → Option (List β)
  | [] => some []
  | a :: rest =>
    match f a, allOf f rest with
    | some b, some bs => some (b :: bs)
    | _, _ => none

/-- A non-empty list, or nothing (R69: n ≥ 1). -/
def nonEmpty {α : Type} : List α → Option (List α)
  | [] => none
  | a :: rest => some (a :: rest)

/-- UNIT v1 ... UNIT vn (R69). -/
def expandUnits (values : List Nat) : Option (List Instr) :=
  (allOf asmWord values).map fun ws => ws.map Instr.unit

/-- The commands a line stands for (R68, R69), or nothing if the assembler refuses it. -/
def expandLine : AsmLine → Option (List Instr)
  | .nop => some [.nop]
  | .init cf => some [.init cf]
  | .mixb b => (asmByte b).map fun w => [.mixb w]
  | .unit v => (asmWord v).map fun w => [.unit w]
  | .scann a n => (asmWord a).bind fun wa => (asmWord n).map fun wn => [.scann wa wn]
  | .scanz a => (asmWord a).map fun wa => [.scanz wa]
  | .hashn cf a n => (asmWord a).bind fun wa => (asmWord n).map fun wn => [.hashn cf wa wn]
  | .hashz cf a => (asmWord a).map fun wa => [.hashz cf wa]
  | .units vs => (nonEmpty vs).bind expandUnits
  | .mixbs bs => ((nonEmpty bs).bind (allOf asmByte)).map fun ws => ws.map Instr.mixb
  | .unitstr cs => (allOf asmChar cs).bind expandUnits
  | .hashv cf vs => (expandUnits vs).map fun us => .init cf :: us

/-- The transactions a line stands for. The word of a line that asks for the user transform is written whether or not
the block implements it; a block without it finds the word illegal (R58). -/
def assembleLine (l : AsmLine) : Option (List Command) :=
  (expandLine l).map fun is => is.map encode

/-! ### The text form (R68) -/

/-- A token: a name, a number (also a character literal), a string, or a comma. -/
inductive Token where
  | name (cs : List Char)
  | num (n : Nat)
  | str (cs : List Char)
  | comma
  deriving DecidableEq, Repr

/-- Lower case of an ASCII letter: mnemonics are case-insensitive (R68). -/
def lowerChar (c : Char) : Char :=
  if 65 ≤ c.toNat ∧ c.toNat ≤ 90 then Char.ofNat (c.toNat + 32) else c

/-- A letter or a digit. -/
def isNameChar (c : Char) : Bool :=
  (48 ≤ c.toNat && c.toNat ≤ 57) || (65 ≤ c.toNat && c.toNat ≤ 90) || (97 ≤ c.toNat && c.toNat ≤ 122)

/-- The value of a digit in a base up to 16. -/
def digitValue (base : Nat) (c : Char) : Option Nat :=
  let n := (lowerChar c).toNat
  let v := if 48 ≤ n ∧ n ≤ 57 then n - 48 else if 97 ≤ n ∧ n ≤ 102 then n - 87 else 16
  if v < base then some v else none

/-- The value of some digits after the value `acc`. -/
def digitsValue (base : Nat) : Nat → List Char → Option Nat
  | acc, [] => some acc
  | acc, c :: rest => (digitValue base c).bind fun v => digitsValue base (acc * base + v) rest

/-- A run of letters and digits: a number if it starts with a digit, decimal or after 0x hexadecimal (R68), else a
name. -/
def wordToken (cs : List Char) : Option Token :=
  match cs with
  | [] => none
  | '0' :: 'x' :: d :: ds => (digitsValue 16 0 (d :: ds)).map .num
  | c :: rest =>
    if 48 ≤ c.toNat ∧ c.toNat ≤ 57 then (digitsValue 10 0 (c :: rest)).map .num else some (.name (c :: rest))

/-- The tokens of one line; the fuel is at least the length of the text. A comment starts at a semicolon (R68). -/
def tokens : Nat → List Char → Option (List Token)
  | 0, _ => some []
  | _ + 1, [] => some []
  | fuel + 1, c :: rest =>
    if c = ';' then some []
    else if c = ' ' ∨ c = '\t' ∨ c = '\r' then tokens fuel rest
    else if c = ',' then (tokens fuel rest).map (.comma :: ·)
    else if c = '\'' then
      match rest with
      | x :: '\'' :: more => (asmChar x).bind fun n => (tokens fuel more).map (.num n :: ·)
      | _ => none
    else if c = '"' then
      let body := rest.takeWhile (· != '"')
      match rest.drop body.length with
      | _ :: more => (tokens fuel more).map (.str body :: ·)
      | [] => none
    else
      let w := (c :: rest).takeWhile isNameChar
      (wordToken w).bind fun t => (tokens fuel ((c :: rest).drop w.length)).map (t :: ·)

/-- The operands of a line: one token each, a comma between two. -/
def operandTokens : List Token → Option (List Token)
  | [] => some []
  | [t] => if t = .comma then none else some [t]
  | t :: .comma :: rest =>
    if t = .comma ∨ rest = [] then none else (operandTokens rest).map (t :: ·)
  | _ :: _ :: _ => none

/-- The numbers of some operands. -/
def numOperand : Token → Option Nat
  | .num n => some n
  | .name _ | .str _ | .comma => none

/-- `<w>`: w32 or w64 (R68). -/
def asmWidth : Token → Option Width
  | .name ['w', '3', '2'] => some .w32
  | .name ['w', '6', '4'] => some .w64
  | _ => none

/-- `<cu>`: cu8, cu16 or cu32 (R68). -/
def asmCuWidth : Token → Option CuWidth
  | .name ['c', 'u', '8'] => some .cu8
  | .name ['c', 'u', '1', '6'] => some .cu16
  | .name ['c', 'u', '3', '2'] => some .cu32
  | _ => none

/-- `<xf>`: id, lower, upper or user (R68). -/
def asmXform : Token → Option Xform
  | .name ['i', 'd'] => some .identity
  | .name ['l', 'o', 'w', 'e', 'r'] => some .asciiToLower
  | .name ['u', 'p', 'p', 'e', 'r'] => some .asciiToUpper
  | .name ['u', 's', 'e', 'r'] => some .user
  | _ => none

/-- `<w>, <cu> [, <xf>]` and the operands after it; an absent `<xf>` is id (R68). -/
def asmCfg : List Token → Option (Cfg × List Token)
  | tw :: tc :: rest =>
    (asmWidth tw).bind fun w => (asmCuWidth tc).map fun cu =>
      match rest with
      | [] => ({ w := w, cu := cu, xf := .identity }, [])
      | tx :: more =>
        match asmXform tx with
        | some x => ({ w := w, cu := cu, xf := x }, more)
        | none => ({ w := w, cu := cu, xf := .identity }, rest)
  | _ => none

/-- A line from its mnemonic, in lower case, and its operands (R68, R69). -/
def asmOperation (mnemonic : List Char) (ops : List Token) : Option AsmLine :=
  match mnemonic with
  | ['n', 'o', 'p'] => if ops = [] then some .nop else none
  | ['m', 'i', 'x', 'b'] =>
    match ops with | [.num b] => some (.mixb b) | _ => none
  | ['u', 'n', 'i', 't'] =>
    match ops with | [.num v] => some (.unit v) | _ => none
  | ['s', 'c', 'a', 'n', 'n'] =>
    match ops with | [.num a, .num n] => some (.scann a n) | _ => none
  | ['s', 'c', 'a', 'n', 'z'] =>
    match ops with | [.num a] => some (.scanz a) | _ => none
  | ['u', 'n', 'i', 't', 's'] => (allOf numOperand ops).map .units
  | ['m', 'i', 'x', 'b', 's'] => (allOf numOperand ops).map .mixbs
  | ['u', 'n', 'i', 't', 's', 't', 'r'] =>
    match ops with | [.str cs] => some (.unitstr cs) | _ => none
  | ['i', 'n', 'i', 't'] =>
    (asmCfg ops).bind fun p => match p.2 with | [] => some (.init p.1) | _ => none
  | ['h', 'a', 's', 'h', 'n'] =>
    (asmCfg ops).bind fun p => match p.2 with | [.num a, .num n] => some (.hashn p.1 a n) | _ => none
  | ['h', 'a', 's', 'h', 'z'] =>
    (asmCfg ops).bind fun p => match p.2 with | [.num a] => some (.hashz p.1 a) | _ => none
  | ['h', 'a', 's', 'h', 'v'] =>
    (asmCfg ops).bind fun p => (allOf numOperand p.2).map (.hashv p.1)
  | _ => none

/-- The transactions of one line of text; a line that holds only a comment stands for none. -/
def assembleText (text : List Char) : Option (List Command) :=
  match tokens text.length text with
  | none => none
  | some [] => some []
  | some (.name m :: rest) =>
    (operandTokens rest).bind fun ops => (asmOperation (m.map lowerChar) ops).bind assembleLine
  | some _ => none

/-- The transactions of a program, one line of text after another. -/
def assembleProgram (lines : List (List Char)) : Option (List Command) :=
  (allOf assembleText lines).map List.flatten

end Sys2Proof.Machine
end

