-- ==== Sys2Proof/Machine/HostPort.lean ====
section
/-!
DEFINITION. What the outside world does to the block between its steps: the host presents commands (R33), asserts rst
(R125) and supplies the input view (R38); another agent may write the view, which turns the reads it races with into
draws (R49, R131).
-/

namespace Sys2Proof.Machine

/-- The host presents one more command, after those it already presents (R16, R33). -/
def presentCommand (c : Command) (s : State) : State := { s with pending := s.pending ++ [c] }

/-- The host asserts rst for the coming step (R125). -/
def assertReset (s : State) : State := { s with rst := true }

/-- Whether the scan in progress may still read unit `a` of width `cu`: a sized scan reads the REM addresses from PTR
on (R95); a terminated scan may read on to any address (R106). -/
def mayStillRead (s : State) (cu : CuWidth) (a : Word) : Bool :=
  s.status.busy && decide (cu = s.cfg.cu) &&
    match s.status.mode with
    | .sized => decide ((a - s.ptr).toNat < s.rem.toNat)
    | .terminated => true

/-- Another agent writes Val(cu, a) <- v at an admitted address. If the scan may still read that unit, its read
becomes a draw (R49). An unadmitted address has no value to change. DESIGN CHOICE, log entry 4. -/
def agentWrite (cu : CuWidth) (a : Word) (v : BitVec cu.bits) (s : State) : State :=
  if admits s.view cu a then
    { s with
      view := putUnit s.view cu a v
      racing := if mayStillRead s cu a then insertAddr a.toNat s.racing else s.racing }
  else s

/-- The host supplies an input view (R38). Outside a scan the view is replaced. The host holds the view for a whole
scan, so during one its admission does not change, and a stuck scan stays stuck (R111: only reset leaves the stuck
state); a host that supplies other values during a scan changes the values of the admitted units, and every read of the
rest of the scan is a draw (R49, R113). What becomes of a view supplied during a scan beyond that is DESIGN CHOICE, log
entries 4 and 18. -/
def supplyView (iv : InputView) (s : State) : State :=
  { s with
    view := if s.status.busy then revalueView iv s.view else iv
    racing := if s.status.busy then (cells s.view s.cfg.cu).map Prod.fst else s.racing }

end Sys2Proof.Machine
end

