-- ==== Sys2Proof/Machine/Platform.lean ====
section
/-!
DEFINITION. A platform of N_INST instances of the block (R10, R121), one of which steps at a time. Instances share no
state; each has its own registers, ports and input view (two views may hold the same units). The platform counts the
draws of all its instances together, so that no two racing reads take the same free value (DESIGN CHOICE, log entries
14 and 19).
-/

namespace Sys2Proof.Machine

/-- The instances of a platform, and the MODEL's counter of the draws they have taken together. -/
structure Platform where
  instances : List State
  draws : Nat
  deriving DecidableEq, Repr

/-- The platform right after reset: N_INST instances, each at its reset state, and no draw taken. -/
def platformReset : Platform := { instances := List.replicate Config.nInst State.reset, draws := 0 }

/-- The state with its next draw numbered `n`. -/
def withDraws (n : Nat) (s : State) : State := { s with draws := n }

/-- Instance `k` takes one step, its draws numbered on from the platform's; a platform without an instance `k` does
nothing. -/
def platformStep (k : Nat) (p : Platform) : Host.Outcome Platform Fault Refusal :=
  match p.instances[k]? with
  | none => .next p
  | some s =>
    match step (withDraws p.draws s) with
    | .next t => .next { instances := p.instances.set k t, draws := t.draws }
    | .fault f => .fault f
    | .refused r => .refused r

end Sys2Proof.Machine
end

