-- ==== Sys2Proof/Safety.lean ====
section
/-!
DEFINITION. The terms claims use: the invariant of the reachable states, the end and the result of a computation
(R137), its fault record (R109), the stuck state (R111), runs of several steps, the spec's legality predicate (R62) and
its pseudocode over unsigned integers (R11), which the statements compare the machine with.
-/

namespace Sys2Proof.Machine

/-- The invariant of the registers: in 32-bit mode ACC[63:32] = 0 (R18); the user transform is held only when
HAS_XF_USER = true (R22); in terminated mode REM = 0 (R29). -/
structure RegInv (s : State) : Prop where
  accHigh : s.cfg.w = .w32 → s.acc.extractLsb' 32 32 = 0
  userLegal : s.cfg.xf = .user → Config.hasXfUser = true
  remTerminated : s.status.mode = .terminated → s.rem = 0

/-- The invariant of the environment: the input view and the racing marks are in canonical form. -/
structure EnvInv (s : State) : Prop where
  view : Memory.wf s.view = true
  racing : addrsRise 0 s.racing = true

/-- The invariant every step keeps. -/
structure MachineInv (s : State) : Prop where
  regs : RegInv s
  env : EnvInv s

/-! ### Computations and their end (R14, R129, R137) -/

/-- The commands that begin a computation (R14). -/
def beginsComputation : Instr → Bool
  | .init _ | .hashn _ _ _ | .hashz _ _ => true
  | .nop | .mixb _ | .unit _ | .scann _ _ | .scanz _ => false

/-- Whether a presented command, once accepted, begins a computation; an illegal one begins none. -/
def startsAnother (c : Command) : Bool :=
  match decode c with
  | .illegal _ => false
  | .command i => beginsComputation i

/-- The presented commands that belong to the current computation: those before the next that begins another (R14). -/
def ownCommands (cs : List Command) : List Command := cs.takeWhile fun c => !startsAnother c

/-- The current computation's last command has been accepted and STATUS.BUSY = 0. Commands of a later computation may
be presented: the end of a computation does not say that the host issued no further command (R137). -/
def Ended (s : State) : Prop := s.status.busy = false ∧ ownCommands s.pending = []

/-- A computation begins in the step from `s` to `t`: a reset, or the acceptance of INIT, HASHN or HASHZ (R14, R127,
R129). -/
def Begins (s t : State) : Prop :=
  step s = .next t ∧
    (s.rst = true ∨ (s.status.busy = false ∧ ∃ c cs, s.pending = c :: cs ∧ startsAnother c = true))

/-- One move of the block and its surroundings within a computation: a step that is no reset (a reset would begin the
next computation), or an action of the host or of another agent. -/
def Moves (s t : State) : Prop :=
  (s.rst = false ∧ step s = .next t) ∨ (∃ c, t = presentCommand c s) ∨ (∃ iv, t = supplyView iv s) ∨
    ∃ cu a v, t = agentWrite cu a v s

/-- A run within a computation in which no state before the last is its end. -/
inductive RunsOn : State → State → Prop where
  | here (s : State) : RunsOn s s
  | move {s u t : State} : ¬ Ended s → Moves s u → RunsOn u t → RunsOn s t

/-- `t` is the end of the computation that begins in the step from `s`: the FIRST state with STATUS.BUSY = 0 after the
computation's last command has been accepted (R137). -/
def EndOfComputation (s t : State) : Prop := ∃ u, Begins s u ∧ RunsOn u t ∧ Ended t

/-- The fault record of a computation at its end, STATUS.ILL (R137). -/
def faultRecord (s : State) : Bool := s.status.ill

/-- A run is safe so far when no illegal command was accepted: STATUS.ILL = 0 (R109). -/
def Safe (s : State) : Prop := faultRecord s = false

/-- The result of a computation, hash_out[W-1:0], meaningful at its end (R132, R137). -/
def result (s : State) : BitVec s.cfg.w.bits := accAt s.cfg.w (hashOut s)

/-- Whether the coming scan step has to read a unit: a sized scan with REM = 0 reads nothing (R95, R96). -/
def NeedsRead (s : State) : Prop := s.status.mode = .terminated ∨ s.rem ≠ 0

/-- The stuck state: STATUS.BUSY = 1 and the next read is unadmitted (R111). -/
def Stuck (s : State) : Prop :=
  s.status.busy = true ∧ NeedsRead s ∧ admits s.view s.cfg.cu s.ptr = false

/-! ### Runs -/

/-- `k` steps of the block, ending at the first that has no next state. -/
def runSteps : Nat → State → Host.Outcome State Fault Refusal
  | 0, s => .next s
  | k + 1, s =>
    match step s with
    | .next t => runSteps k t
    | .fault f => .fault f
    | .refused r => .refused r

/-- The effects of some commands, one after another. -/
def execAll : List Instr → State → Host.Outcome State Fault Refusal
  | [], s => .next s
  | i :: rest, s =>
    match exec i s with
    | .next t => execAll rest t
    | .fault f => .fault f
    | .refused r => .refused r

/-- A command, and then `k` steps. -/
def execThenRun (i : Instr) (k : Nat) (s : State) : Host.Outcome State Fault Refusal :=
  match exec i s with
  | .next t => runSteps k t
  | .fault f => .fault f
  | .refused r => .refused r

/-- A next state changed by `f`, or the same stop. -/
def mapNext (f : State → State) : Host.Outcome State Fault Refusal → Host.Outcome State Fault Refusal
  | .next t => .next (f t)
  | .fault e => .fault e
  | .refused r => .refused r

/-- The view admits the units `us` from unit address `start` on, modulo 2^64 (R39, R104). -/
def UnitsAt (iv : InputView) (cu : CuWidth) (start : Word) (us : List (BitVec cu.bits)) : Prop :=
  ∀ (n : Nat) (h : n < us.length), viewUnit iv cu (start + BitVec.ofNat 64 n) = some us[n]

/-- The bytes one command adds to the byte stream of a computation under `cf` (R87): MIXB its raw byte, UNIT the
decomposed bytes of its transformed unit, and nothing otherwise. -/
def streamBytes (cf : Cfg) : Instr → List Byte
  | .mixb opa => [byteOperand opa]
  | .unit opa => unitBytes cf.cu (transform cf.xf cf.cu (unitOperand cf.cu opa))
  | .nop | .init _ | .scann _ _ | .scanz _ | .hashn _ _ _ | .hashz _ _ => []

/-- The commands that feed bytes from their operands, and NOP. -/
def feedsOperand : Instr → Bool
  | .nop | .mixb _ | .unit _ => true
  | .init _ | .scann _ _ | .scanz _ | .hashn _ _ _ | .hashz _ _ => false

/-! ### The spec's own words over unsigned integers (R11) -/

/-- v[hi:lo] of an unsigned integer, `len` bits from `lo` up (R11). -/
def natField (v lo len : Nat) : Nat := v / 2 ^ lo % 2 ^ len

/-- Legal(cmd) (R62). -/
def Legal (hasUser : Bool) (cmd : Nat) : Prop :=
  natField cmd 9 23 = 0 ∧ natField cmd 0 4 ≤ 7 ∧
    if natField cmd 0 4 = 1 ∨ natField cmd 0 4 = 6 ∨ natField cmd 0 4 = 7 then
      natField cmd 5 2 ≠ 3 ∧ (natField cmd 7 2 ≠ 3 ∨ hasUser = true)
    else natField cmd 4 5 = 0

/-- PRIME(W) (R30). -/
def natPrime : Width → Nat
  | .w32 => 0x01000193
  | .w64 => 0x00000100000001B3

/-- BASIS(W) (R30). -/
def natBasis : Width → Nat
  | .w32 => 0x811C9DC5
  | .w64 => 0xCBF29CE484222325

/-- mix(W, s, b) (R71). -/
def natMix (w : Width) (s b : Nat) : Nat := ((s ^^^ b) * natPrime w) % 2 ^ w.bits

/-- xf(XF, cuw, v) (R77 to R80). -/
def natTransform (x : Xform) (cu : CuWidth) (v : Nat) : Nat :=
  match x with
  | .identity => v
  | .asciiToLower => if 0x41 ≤ v ∧ v ≤ 0x5A then v + 0x20 else v
  | .asciiToUpper => if 0x61 ≤ v ∧ v ≤ 0x7A then v - 0x20 else v
  | .user => (Config.xfUser cu (BitVec.ofNat cu.bits v)).toNat

/-- bytes(cuw, v) (R81). -/
def natBytes (cu : CuWidth) (v : Nat) : List Nat :=
  match cu with
  | .cu8 => [v &&& 0xFF]
  | .cu16 => [v &&& 0xFF, (v >>> 8) &&& 0xFF]
  | .cu32 => [v &&& 0xFF, (v >>> 8) &&& 0xFF, (v >>> 16) &&& 0xFF, (v >>> 24) &&& 0xFF]

/-- feed(W, cuw, XF, s, u) (R82). -/
def natFeed (w : Width) (cu : CuWidth) (x : Xform) (s u : Nat) : Nat :=
  (natBytes cu (natTransform x cu u)).foldl (natMix w) s

/-- hash(W, cuw, XF, units) (R83). -/
def natHash (w : Width) (cu : CuWidth) (x : Xform) (units : List Nat) : Nat :=
  units.foldl (natFeed w cu x) (natBasis w)

end Sys2Proof.Machine
end

