-- ==== Sys2Proof/WellFormed.lean ====
section
/-!
DEFINITION. Well-formed commands: those some legal command word stands for. The types of `Syntax` leave one check:
the user transform needs HAS_XF_USER (R58, R62).
-/

namespace Sys2Proof

/-- XF = 3 is legal only when HAS_XF_USER = true (R58). -/
def Cfg.legalWith (hasUser : Bool) (cf : Cfg) : Bool :=
  match cf.xf with
  | .user => hasUser
  | .identity | .asciiToLower | .asciiToUpper => true

/-- Well-formedness for a given HAS_XF_USER. -/
def Instr.wellFormedWith (hasUser : Bool) : Instr → Bool
  | .nop => true
  | .init cf => cf.legalWith hasUser
  | .mixb _ => true
  | .unit _ => true
  | .scann _ _ => true
  | .scanz _ => true
  | .hashn cf _ _ => cf.legalWith hasUser
  | .hashz cf _ => cf.legalWith hasUser

/-- Well-formedness on this implementation. -/
def Instr.wellFormed (i : Instr) : Bool := i.wellFormedWith Config.hasXfUser

end Sys2Proof
end

