-- ==== Sys2Proof/Certificates/Slice0/Obligations.lean ====
section
/-!
DEFINITION. The statements about the machine. Each docstring names the rule of spec/ it comes from.
-/

open Sys2Proof Sys2Proof.Machine

/-! ### Encoding -/

/-- R68, R54: the words the spec writes out decode to the commands it names, with HAS_XF_USER true and false. -/
def Obligations.DecodesWordsOfTheSpec : Prop :=
  ∀ (user : Bool) (a b : Word),
    decodeWith user { cmd := 0x00000000, opa := a, opb := b } = .command .nop ∧
    decodeWith user { cmd := 0x00000151, opa := a, opb := b } = .command (.init ⟨.w64, .cu32, .asciiToUpper⟩) ∧
    decodeWith user { cmd := 0x00000002, opa := a, opb := b } = .command (.mixb a) ∧
    decodeWith user { cmd := 0x00000003, opa := a, opb := b } = .command (.unit a) ∧
    decodeWith user { cmd := 0x00000004, opa := a, opb := b } = .command (.scann a b) ∧
    decodeWith user { cmd := 0x00000005, opa := a, opb := b } = .command (.scanz a) ∧
    decodeWith user { cmd := 0x00000096, opa := a, opb := b } = .command (.hashn ⟨.w64, .cu8, .asciiToLower⟩ a b) ∧
    decodeWith user { cmd := 0x00000127, opa := a, opb := b } = .command (.hashz ⟨.w32, .cu16, .asciiToUpper⟩ a)

/-- Decode of encode: every well-formed command, with every operand value, decodes back to itself (R54, R55, R67). -/
def Obligations.DecodeOfEncode : Prop :=
  ∀ i : Instr, i.wellFormed = true → decode (encode i) = .command i

/-- Encode of decode: a transaction that decodes to a command carries that command's word, and the operands the
command reads (R55, R60). -/
def Obligations.EncodeOfDecode : Prop :=
  ∀ (c : Command) (i : Instr), decode c = .command i →
    i.wellFormed = true ∧ (encode i).cmd = c.cmd ∧
    match i with
    | .nop | .init _ => True
    | .mixb a | .unit a | .scanz a | .hashz _ a => a = c.opa
    | .scann a n | .hashn _ a n => a = c.opa ∧ n = c.opb

/-- R62, R65: a word decodes to a command exactly when Legal(cmd) holds, whatever the operands; an accepted illegal
word sets STATUS.ILL and changes nothing else of the block. -/
def Obligations.LegalWordsDecodeAndIllegalWordsFault : Prop :=
  (∀ (user : Bool) (c : Command),
    (∃ i, decodeWith user c = .command i) ↔ Legal user c.cmd.toNat) ∧
  (∀ (s : State) (c : Command) (cs : List Command),
    s.rst = false → s.status.busy = false → s.pending = c :: cs → ¬ Legal Config.hasXfUser c.cmd.toNat →
    step s = .next { s with pending := cs, status := { s.status with ill := true } })

/-- R67: Decode, case by case: an illegal word is illegal, and a legal one is the operation OP selects, with CF and the
operands it takes. -/
def Obligations.DecodeSelectsByOp : Prop :=
  ∀ (user : Bool) (c : Command),
    (¬ Legal user c.cmd.toNat → ∃ r, decodeWith user c = .illegal r) ∧
    (Legal user c.cmd.toNat →
      (natField c.cmd.toNat 0 4 = 0 → decodeWith user c = .command .nop) ∧
      (natField c.cmd.toNat 0 4 = 1 →
        ∃ cf, (cfgBits cf).toNat = natField c.cmd.toNat 4 5 ∧ decodeWith user c = .command (.init cf)) ∧
      (natField c.cmd.toNat 0 4 = 2 → decodeWith user c = .command (.mixb c.opa)) ∧
      (natField c.cmd.toNat 0 4 = 3 → decodeWith user c = .command (.unit c.opa)) ∧
      (natField c.cmd.toNat 0 4 = 4 → decodeWith user c = .command (.scann c.opa c.opb)) ∧
      (natField c.cmd.toNat 0 4 = 5 → decodeWith user c = .command (.scanz c.opa)) ∧
      (natField c.cmd.toNat 0 4 = 6 →
        ∃ cf, (cfgBits cf).toNat = natField c.cmd.toNat 4 5 ∧ decodeWith user c = .command (.hashn cf c.opa c.opb)) ∧
      (natField c.cmd.toNat 0 4 = 7 →
        ∃ cf, (cfgBits cf).toNat = natField c.cmd.toNat 4 5 ∧ decodeWith user c = .command (.hashz cf c.opa)))

/-- The spec's own derivation in 30_encoding §5 (R70): a word is a row's command exactly when (cmd AND mask) = match
and the row's extra constraint holds, and a word that matches no row is illegal. The rows are disjoint because each
word decodes to one command. -/
def Obligations.TableRowsMatchDecode : Prop :=
  ∀ (user : Bool) (c : Command),
    let cfOk : Prop := natField c.cmd.toNat 5 2 ≠ 3 ∧ (natField c.cmd.toNat 7 2 ≠ 3 ∨ user = true)
    (decodeWith user c = .command .nop ↔ c.cmd &&& 0xFFFFFFFF = 0x00000000) ∧
    ((∃ cf, decodeWith user c = .command (.init cf)) ↔ c.cmd &&& 0xFFFFFE0F = 0x00000001 ∧ cfOk) ∧
    ((∃ a, decodeWith user c = .command (.mixb a)) ↔ c.cmd &&& 0xFFFFFFFF = 0x00000002) ∧
    ((∃ a, decodeWith user c = .command (.unit a)) ↔ c.cmd &&& 0xFFFFFFFF = 0x00000003) ∧
    ((∃ a n, decodeWith user c = .command (.scann a n)) ↔ c.cmd &&& 0xFFFFFFFF = 0x00000004) ∧
    ((∃ a, decodeWith user c = .command (.scanz a)) ↔ c.cmd &&& 0xFFFFFFFF = 0x00000005) ∧
    ((∃ cf a n, decodeWith user c = .command (.hashn cf a n)) ↔ c.cmd &&& 0xFFFFFE0F = 0x00000006 ∧ cfOk) ∧
    ((∃ cf a, decodeWith user c = .command (.hashz cf a)) ↔ c.cmd &&& 0xFFFFFE0F = 0x00000007 ∧ cfOk) ∧
    ((∀ i, decodeWith user c ≠ .command i) → ∃ r, decodeWith user c = .illegal r)

/-! ### Reset -/

/-- R36: the reset values, for a given NATIVE_W; the machine's reset state takes NATIVE_W from the implementation. -/
def Obligations.ResetValues : Prop :=
  State.reset = State.resetWith Config.nativeW ∧
  ∀ native : Width,
    (State.resetWith native).acc = (match native with | .w32 => 0x00000000811C9DC5 | .w64 => 0xCBF29CE484222325) ∧
    cfgOut (State.resetWith native) = (match native with | .w32 => 0b00000 | .w64 => 0b00001) ∧
    (State.resetWith native).status = { busy := false, ill := false, mode := .sized } ∧
    (State.resetWith native).ptr = 0 ∧ (State.resetWith native).rem = 0

/-- The register clauses are R125 with R36: with rst asserted, one step writes every register to its reset value,
whatever else the state holds (a command presented, a scan, a stuck scan). That every presented command is still
presented, and that the view is kept, is the model's reading (log entry 17, DEDUCED; R116 and R126 say that a command
presented with the reset is not accepted, R43 that the block writes no memory). -/
def Obligations.ResetStepWritesEveryRegister : Prop :=
  ∀ s : State, s.rst = true → ∃ t, step s = .next t ∧
    hashOut t = (match Config.nativeW with | .w32 => 0x00000000811C9DC5 | .w64 => 0xCBF29CE484222325) ∧
    cfgOut t = (match Config.nativeW with | .w32 => 0b00000 | .w64 => 0b00001) ∧
    statusOut t = 0 ∧ ptrOut t = 0 ∧ remOut t = 0 ∧ t.pending = s.pending ∧ t.view = s.view

/-- The spec's own derivation in 70_reset §1 (R127): reset leaves what `INIT <NATIVE_W>, cu8, id` leaves in ACC and
CFG, with STATUS, PTR and REM at 0, so the empty computation reads BASIS(NATIVE_W). -/
def Obligations.ResetIsInitOfNativeWidth : Prop :=
  ∀ s : State, s.rst = true → ∃ t u, step s = .next t ∧ exec (.init ⟨Config.nativeW, .cu8, .identity⟩) s = .next u ∧
    t.acc = u.acc ∧ t.cfg = u.cfg ∧ statusOut t = 0 ∧ t.ptr = 0 ∧ t.rem = 0 ∧
    (hashOut t).toNat = natBasis Config.nativeW

/-! ### The step and the command port -/

/-- R13, R33: when the command on the port decodes to `i`, the block is not busy and rst is not asserted, the step
accepts it and is `exec i`. -/
def Obligations.StepRunsDecodedCommand : Prop :=
  ∀ (s : State) (c : Command) (cs : List Command) (i : Instr),
    s.rst = false → s.status.busy = false → s.pending = c :: cs → decode c = .command i →
    step s = exec i { s with pending := cs }

/-- The model's own entry for the host's probe (log entry 11): the step after `withFetchWord` runs the command the
word stands for. -/
def Obligations.FetchWordIsRunNext : Prop :=
  ∀ (s : State) (nbits w : Nat) (i : Instr), decodeTableWord nbits w = some i →
    step (s.withFetchWord nbits w) = exec i { s with rst := false, status := { s.status with busy := false } }

/-- 60_exceptions §3 (R124): nothing presented, BUSY = 0 and no reset: the state does not change. That such a
step answers the same state is the model's choice (log entry 8). -/
def Obligations.IdleStepChangesNothing : Prop :=
  ∀ s : State, s.rst = false → s.status.busy = false → s.pending = [] → step s = .next s

/-- R33, R130: the command on the port is accepted exactly when BUSY = 0 and rst is not asserted; otherwise every
presented command is held, in order, neither accepted nor dropped. In a reset step R116 and R126 say that the
presented command is not accepted; that it is still presented afterwards is the model's reading (log entry 17,
DEDUCED). -/
def Obligations.PortHoldsOrAccepts : Prop :=
  ∀ s t : State, step s = .next t →
    t.pending = if s.rst = true ∨ s.status.busy = true then s.pending else s.pending.tail

/-- 60_exceptions §1 (R111, R105): the block has no step exactly when it is stuck (and rst is not asserted); then the
port is not ready, the computation has not ended, and asserting rst gives the reset step. Nothing else stops the
machine. That the stuck state is a fault of the model is its choice (log entry 7). -/
def Obligations.StuckIsTheOnlyStop : Prop :=
  (∀ s : State, (∃ f, step s = .fault f) ↔ s.rst = false ∧ Stuck s) ∧
  (∀ (s : State) (r : Refusal), step s ≠ .refused r) ∧
  (∀ s : State, Stuck s → cmdReady s = false ∧ ¬ Ended s ∧
    ∃ t, step (assertReset s) = .next t ∧ statusOut t = 0 ∧ cmdReady t = true)

/-- R111, R105, R130: only reset leaves the stuck state. In it the block has no step, whatever the host and other
agents do to the block and its view in the meantime it is still stuck, so its computation reaches no end (R137), and
asserting rst gives a step to a state that is not stuck and whose port is ready. That the stuck state is a fault of
the model is its choice (log entry 7), and what becomes of a view supplied in it is log entry 18. -/
def Obligations.OnlyResetLeavesTheStuckState : Prop :=
  ∀ s : State, Stuck s →
    (s.rst = false → step s = .fault .stuckUnadmittedRead) ∧
    (∀ c, Stuck (presentCommand c s)) ∧ (∀ iv, Stuck (supplyView iv s)) ∧
    (∀ cu a v, Stuck (agentWrite cu a v s)) ∧
    (∀ t, RunsOn s t → Stuck t ∧ ¬ Ended t) ∧
    ∃ t, step (assertReset s) = .next t ∧ ¬ Stuck t ∧ cmdReady t = true

/-! ### The functions of the Byte Mixer and the Hash Engine, against the spec's integer pseudocode -/

/-- R71: mix(W, s, b) = ((s XOR zext_W(b)) * PRIME(W)) mod 2^W, with the exact product of unsigned integers. -/
def Obligations.MixIsIntegerMix : Prop :=
  ∀ (w : Width) (s : BitVec w.bits) (b : Byte), (mix w s b).toNat = natMix w s.toNat b.toNat

/-- R77 to R80: the transforms on the whole code-unit value, at every width; the result stays in range. -/
def Obligations.TransformIsIntegerTransform : Prop :=
  ∀ (x : Xform) (cu : CuWidth) (v : BitVec cu.bits),
    (transform x cu v).toNat = natTransform x cu v.toNat ∧ natTransform x cu v.toNat < 2 ^ cu.bits

/-- R81: the bytes of a unit, least significant first, each v[8k+7:8k]. -/
def Obligations.UnitBytesLowFirst : Prop :=
  ∀ (cu : CuWidth) (v : BitVec cu.bits), (unitBytes cu v).map BitVec.toNat = natBytes cu v.toNat

/-- R82, R83: feed and hash are the folds of the spec's pseudocode; the empty sequence hashes to BASIS(W). -/
def Obligations.FeedAndHashAreIntegerFolds : Prop :=
  (∀ (w : Width) (cu : CuWidth) (x : Xform) (s : BitVec w.bits) (u : BitVec cu.bits),
    (feed w cu x s u).toNat = natFeed w cu x s.toNat u.toNat) ∧
  (∀ (w : Width) (cu : CuWidth) (x : Xform) (us : List (BitVec cu.bits)),
    (hashUnits w cu x us).toNat = natHash w cu x (us.map BitVec.toNat)) ∧
  (∀ (w : Width) (cu : CuWidth) (x : Xform), (hashUnits w cu x []).toNat = natBasis w)

/-- The spec's own derivation in 40_byte_mixer §3 (R75): for each width and byte, mix is a bijection on states, with
the inverse the rule gives. -/
def Obligations.MixIsABijection : Prop :=
  (∀ (w : Width) (b : Byte), Function.Bijective fun s => mix w s b) ∧
  (∀ (s : BitVec 32) (b : Byte), (mix .w32 s b * 0x359C449B#32) ^^^ b.setWidth 32 = s) ∧
  (∀ (s : BitVec 64) (b : Byte), (mix .w64 s b * 0xCE965057AFF6957B#64) ^^^ b.setWidth 64 = s)

/-- The spec's own derivation in 40_byte_mixer §3 (R75): two sequences whose transformed units differ in exactly one
place have different hashes, for 8-bit and for 16-bit units. (Nothing is claimed for 32-bit units, 90_conflicts C5.)
-/
def Obligations.OneUnitChangesTheHash : Prop :=
  ∀ (w : Width) (cu : CuWidth) (x : Xform) (before after : List (BitVec cu.bits)) (u v : BitVec cu.bits),
    cu ≠ .cu32 → transform x cu u ≠ transform x cu v →
    hashUnits w cu x (before ++ u :: after) ≠ hashUnits w cu x (before ++ v :: after)

/-- R74's corner cases: mix gives 0 exactly when the state is the byte. The states a zero byte leaves as they are: 0,
and also 2^(W-1), because PRIME(W) is odd; the remark of R74 that MIXB 0 is no no-op unless ACC = 0 overlooks the
second, and the rule's formula is followed. -/
def Obligations.ZeroesAndFixedPointsOfMix : Prop :=
  ∀ (w : Width) (s : BitVec w.bits),
    (∀ b : Byte, mix w s b = 0 ↔ s = b.setWidth w.bits) ∧
    (mix w s 0 = s ↔ s = 0 ∨ s.toNat = 2 ^ (w.bits - 1))

/-! ### The commands: result, frame and completion -/

/-- R84: NOP completes and changes nothing; on the port, with any operands, only the presented command goes; a word with
OP = 0 that is not NOP's is illegal. -/
def Obligations.NopChangesNothing : Prop :=
  (∀ s : State, exec .nop s = .next s) ∧
  (∀ (s : State) (opa opb : Word) (cs : List Command), s.rst = false → s.status.busy = false →
    s.pending = { cmd := 0, opa := opa, opb := opb } :: cs → step s = .next { s with pending := cs }) ∧
  (∀ (user : Bool) (c : Command), natField c.cmd.toNat 0 4 = 0 → c.cmd ≠ 0 → ∃ r, decodeWith user c = .illegal r)

/-- R85: INIT completes; CFG <- CF and ACC <- zext_64(BASIS(W)); everything else is unchanged. -/
def Obligations.InitLatchesAndLoadsBasis : Prop :=
  ∀ (cf : Cfg) (s : State), ∃ t, exec (.init cf) s = .next t ∧
    t.acc.toNat = natBasis cf.w ∧ t = { s with cfg := cf, acc := t.acc }

/-- R74: MIXB completes; ACC <- zext_64(mix(W, ACC[W-1:0], opa[7:0])) whatever CUW and XF are; everything else is
unchanged. -/
def Obligations.MixbMixesOneByte : Prop :=
  ∀ (opa : Word) (s : State), ∃ t, exec (.mixb opa) s = .next t ∧
    t.acc.toNat = natMix s.cfg.w (s.acc.toNat % 2 ^ s.cfg.w.bits) (opa.toNat % 2 ^ 8) ∧
    t = { s with acc := t.acc }

/-- R86: UNIT completes; ACC <- zext_64(feed(W, cuw, XF, ACC[W-1:0], opa[cuw-1:0])); everything else is unchanged. -/
def Obligations.UnitFeedsOneUnit : Prop :=
  ∀ (opa : Word) (s : State), ∃ t, exec (.unit opa) s = .next t ∧
    t.acc.toNat = natFeed s.cfg.w s.cfg.cu s.cfg.xf (s.acc.toNat % 2 ^ s.cfg.w.bits) (opa.toNat % 2 ^ s.cfg.cu.bits) ∧
    t = { s with acc := t.acc }

/-- R94: SCANN completes; PTR <- opa, REM <- opb, MODE <- 0, BUSY <- 1; ACC, CFG, ILL, the port, the view and rst are
unchanged. That the marks of racing writes are then empty is the model's choice (log entry 4). -/
def Obligations.ScannStartsSizedScan : Prop :=
  ∀ (start len : Word) (s : State), ∃ t, exec (.scann start len) s = .next t ∧
    t.ptr = start ∧ t.rem = len ∧ t.status = { busy := true, ill := s.status.ill, mode := .sized } ∧
    t.acc = s.acc ∧ t.cfg = s.cfg ∧ t.pending = s.pending ∧ t.view = s.view ∧ t.rst = s.rst ∧
    t.racing = [] ∧ t.draws = s.draws

/-- R97: SCANZ completes; PTR <- opa, REM <- 0, MODE <- 1, BUSY <- 1; ACC, CFG, ILL, the port, the view and rst are
unchanged. That the marks of racing writes are then empty is the model's choice (log entry 4). -/
def Obligations.ScanzStartsTerminatedScan : Prop :=
  ∀ (start : Word) (s : State), ∃ t, exec (.scanz start) s = .next t ∧
    t.ptr = start ∧ t.rem = 0 ∧ t.status = { busy := true, ill := s.status.ill, mode := .terminated } ∧
    t.acc = s.acc ∧ t.cfg = s.cfg ∧ t.pending = s.pending ∧ t.view = s.view ∧ t.rst = s.rst ∧
    t.racing = [] ∧ t.draws = s.draws

/-- R100: HASHN completes with the effect of INIT and then SCANN. That the marks of racing writes are then empty is
the model's choice (log entry 4). -/
def Obligations.HashnIsInitThenScann : Prop :=
  ∀ (cf : Cfg) (start len : Word) (s : State), ∃ t, exec (.hashn cf start len) s = .next t ∧
    execAll [.init cf, .scann start len] s = .next t ∧
    t.cfg = cf ∧ t.acc.toNat = natBasis cf.w ∧ t.ptr = start ∧ t.rem = len ∧
    t.status = { busy := true, ill := s.status.ill, mode := .sized } ∧ t.pending = s.pending ∧ t.view = s.view ∧
    t.rst = s.rst ∧ t.racing = [] ∧ t.draws = s.draws

/-- R101: HASHZ completes with the effect of INIT and then SCANZ. That the marks of racing writes are then empty is
the model's choice (log entry 4). -/
def Obligations.HashzIsInitThenScanz : Prop :=
  ∀ (cf : Cfg) (start : Word) (s : State), ∃ t, exec (.hashz cf start) s = .next t ∧
    execAll [.init cf, .scanz start] s = .next t ∧
    t.cfg = cf ∧ t.acc.toNat = natBasis cf.w ∧ t.ptr = start ∧ t.rem = 0 ∧
    t.status = { busy := true, ill := s.status.ill, mode := .terminated } ∧ t.pending = s.pending ∧ t.view = s.view ∧
    t.rst = s.rst ∧ t.racing = [] ∧ t.draws = s.draws

/-- The spec's own derivation in 41_hash_engine §5 (R89): UNIT has the effect of the MIXBs of the bytes of its
transformed unit, on the whole state. -/
def Obligations.UnitIsItsMixbs : Prop :=
  ∀ (opa : Word) (s : State), exec (.unit opa) s =
    execAll ((unitBytes s.cfg.cu (transform s.cfg.xf s.cfg.cu (unitOperand s.cfg.cu opa))).map
      fun b => .mixb (b.setWidth 64)) s

/-- R60, R61, R63: MIXB reads opa[7:0] only and UNIT reads opa[cuw-1:0] only, and no command but SCANN and HASHN reads
opb. -/
def Obligations.OtherOperandBitsIgnored : Prop :=
  (∀ (a b : Word) (s : State), a.toNat % 2 ^ 8 = b.toNat % 2 ^ 8 → exec (.mixb a) s = exec (.mixb b) s) ∧
  (∀ (a b : Word) (s : State), a.toNat % 2 ^ s.cfg.cu.bits = b.toNat % 2 ^ s.cfg.cu.bits →
    exec (.unit a) s = exec (.unit b) s) ∧
  (∀ (user : Bool) (c : Command) (opb : Word), natField c.cmd.toNat 0 4 ≠ 4 → natField c.cmd.toNat 0 4 ≠ 6 →
    decodeWith user { c with opb := opb } = decodeWith user c) ∧
  (∀ (user : Bool) (c : Command) (opa : Word), natField c.cmd.toNat 0 4 ≤ 1 →
    decodeWith user { c with opa := opa } = decodeWith user c)

/-- The spec's own derivation in 41_hash_engine §5 (R92): what a command leaves in ACC and CFG depends only on ACC,
CFG and the command. -/
def Obligations.AccDependsOnAccCfgAndCommand : Prop :=
  ∀ (i : Instr) (s s' t t' : State), s.acc = s'.acc → s.cfg = s'.cfg →
    exec i s = .next t → exec i s' = .next t' → t.acc = t'.acc ∧ t.cfg = t'.cfg

/-! ### Scan steps -/

/-- R95: a step of a sized scan over stable units ends the scan when REM = 0, and else feeds the unit at PTR,
advances PTR modulo 2^64 and counts REM down; everything else is unchanged. -/
def Obligations.SizedScanStep : Prop :=
  ∀ s : State, s.rst = false → s.status.busy = true → s.status.mode = .sized →
    (s.rem = 0 → step s = .next { s with status := { s.status with busy := false } }) ∧
    (∀ u, s.rem ≠ 0 → viewUnit s.view s.cfg.cu s.ptr = some u → s.ptr.toNat ∉ s.racing →
      ∃ t, step s = .next t ∧
        t.acc.toNat = natFeed s.cfg.w s.cfg.cu s.cfg.xf (s.acc.toNat % 2 ^ s.cfg.w.bits) u.toNat ∧
        t.ptr.toNat = (s.ptr.toNat + 1) % 2 ^ 64 ∧ t.rem.toNat = s.rem.toNat - 1 ∧
        t = { s with acc := t.acc, ptr := t.ptr, rem := t.rem })

/-- R99, R98: a step of a terminated scan over stable units ends the scan at a raw unit 0, before any transform, with
ACC and PTR as they were, and else feeds the unit and advances PTR modulo 2^64; everything else is unchanged. -/
def Obligations.TerminatedScanStep : Prop :=
  ∀ (s : State) (u : BitVec s.cfg.cu.bits), s.rst = false → s.status.busy = true → s.status.mode = .terminated →
    viewUnit s.view s.cfg.cu s.ptr = some u → s.ptr.toNat ∉ s.racing →
    (u = 0 → step s = .next { s with status := { s.status with busy := false } }) ∧
    (u ≠ 0 → ∃ t, step s = .next t ∧
      t.acc.toNat = natFeed s.cfg.w s.cfg.cu s.cfg.xf (s.acc.toNat % 2 ^ s.cfg.w.bits) u.toNat ∧
      t.ptr.toNat = (s.ptr.toNat + 1) % 2 ^ 64 ∧ t = { s with acc := t.acc, ptr := t.ptr })

/-- R49, R46: a scan reads a draw where another agent has written the unit during the scan: the step still completes,
and the unit it feeds (or, in a terminated scan, compares with the sentinel) is the free value, not the one the view
holds. What the step then does with that value is R95 and R99. How the draw is held is the model's choice (log entry
4), and that a drawn 0 ends a terminated scan is its reading (log entry 10, DEDUCED); the statement holds for every
value of the draw. -/
def Obligations.RacedReadIsADraw : Prop :=
  ∀ (s : State) (v : BitVec s.cfg.cu.bits), s.rst = false → s.status.busy = true → NeedsRead s →
    viewUnit s.view s.cfg.cu s.ptr = some v → s.ptr.toNat ∈ s.racing →
    ∃ t, step s = .next t ∧ t.draws = s.draws + 1 ∧
      if s.status.mode = .terminated ∧ Config.draw s.cfg.cu s.draws = 0 then
        t = { s with status := { s.status with busy := false }, draws := t.draws }
      else
        t.acc.toNat = natFeed s.cfg.w s.cfg.cu s.cfg.xf (s.acc.toNat % 2 ^ s.cfg.w.bits)
          (Config.draw s.cfg.cu s.draws).toNat ∧
        t.ptr.toNat = (s.ptr.toNat + 1) % 2 ^ 64 ∧
        t.rem.toNat = (if s.status.mode = .sized then s.rem.toNat - 1 else s.rem.toNat) ∧
        t = { s with acc := t.acc, ptr := t.ptr, rem := t.rem, draws := t.draws }

/-- R49, R131: a write by another agent changes the unit it writes and no other; the unit's read becomes a draw
exactly when the scan in progress may still read it. The model's choices in it: the marks, and which units a scan may
still read, are log entry 4 (DESIGN CHOICE); that a write at one width leaves the units of the other widths as they
were is log entry 6 (DESIGN CHOICE: the model's views of three widths share no storage, a host's may). -/
def Obligations.AgentWriteMarksTheRacedUnit : Prop :=
  ∀ (s : State) (cu : CuWidth) (a : Word) (v : BitVec cu.bits), admits s.view cu a = true →
    viewUnit (agentWrite cu a v s).view cu a = some v ∧
    (∀ b, b ≠ a → viewUnit (agentWrite cu a v s).view cu b = viewUnit s.view cu b) ∧
    (∀ cu' b, cu' ≠ cu → viewUnit (agentWrite cu a v s).view cu' b = viewUnit s.view cu' b) ∧
    (∀ n, n ∈ (agentWrite cu a v s).racing ↔ n ∈ s.racing ∨ (mayStillRead s cu a = true ∧ n = a.toNat)) ∧
    agentWrite cu a v s =
      { s with view := (agentWrite cu a v s).view, racing := (agentWrite cu a v s).racing }

/-- R38, R49: outside a scan a supplied view replaces the view; during a scan it changes no admission, and every
admitted unit of the scan's width becomes a draw. Nothing else of the state changes. The model's choices in it are log
entries 4 and 18. -/
def Obligations.AdmissionIsHeldDuringAScan : Prop :=
  ∀ (s : State) (iv : InputView),
    supplyView iv s = { s with view := (supplyView iv s).view, racing := (supplyView iv s).racing } ∧
    (s.status.busy = false → (supplyView iv s).view = iv ∧ (supplyView iv s).racing = s.racing) ∧
    (s.status.busy = true →
      (∀ cu a, admits (supplyView iv s).view cu a = admits s.view cu a) ∧
      ∀ a, admits s.view s.cfg.cu a = true → a.toNat ∈ (supplyView iv s).racing)

/-- R34, R50: outside a scan, and in a reset, a step reads nothing of the input view. -/
def Obligations.NoReadOutsideAScan : Prop :=
  ∀ (s : State) (iv : InputView), s.rst = true ∨ s.status.busy = false →
    step { s with view := iv } = mapNext (fun t => { t with view := iv }) (step s)

/-- R34, R48: a scan step reads at most the one unit at PTR, of the scan's width: it does the same over any view that
agrees there. Where the unit at PTR is raced, both steps read the same draw: that two states stepped apart take the
same value for a draw of one number is the model's choice (log entry 19), not the spec's. -/
def Obligations.ScanStepReadsOnlyTheUnitAtPtr : Prop :=
  ∀ (s : State) (iv : InputView), s.status.busy = true →
    viewUnit iv s.cfg.cu s.ptr = viewUnit s.view s.cfg.cu s.ptr →
    step { s with view := iv } = mapNext (fun t => { t with view := iv }) (step s)

/-- R43: nothing the block does writes the input view: after any step and after any command every unit, of every width,
reads as before. -/
def Obligations.NoStepWritesTheView : Prop :=
  (∀ s t : State, step s = .next t → t.view = s.view ∧ ∀ cu a, viewUnit t.view cu a = viewUnit s.view cu a) ∧
  (∀ (i : Instr) (s t : State), exec i s = .next t → ∀ cu a, viewUnit t.view cu a = viewUnit s.view cu a)

/-! ### Whole scans and computations -/

/-- R95, R96, R100, R102: HASHN over admitted, stable units takes len + 1 scan steps and ends with BUSY = 0, REM = 0,
PTR = start + len (mod 2^64) and ACC the hash of the units, for every length including 0. -/
def Obligations.HashnEndsWithTheHash : Prop :=
  ∀ (s : State) (cf : Cfg) (start : Word) (us : List (BitVec cf.cu.bits)),
    s.rst = false → us.length < 2 ^ 64 → UnitsAt s.view cf.cu start us →
    ∃ t, execThenRun (.hashn cf start (BitVec.ofNat 64 us.length)) (us.length + 1) s = .next t ∧
      (hashOut t).toNat = natHash cf.w cf.cu cf.xf (us.map BitVec.toNat) ∧ t.cfg = cf ∧
      t.ptr = start + BitVec.ofNat 64 us.length ∧ t.rem = 0 ∧
      t.status = { busy := false, ill := s.status.ill, mode := .sized } ∧
      t.pending = s.pending ∧ t.view = s.view

/-- R95, R102: SCANN over admitted, stable units takes len + 1 scan steps and continues the fold from ACC. The
premise is the register invariant, which every reachable state meets. -/
def Obligations.ScannContinuesTheFold : Prop :=
  ∀ (s : State) (start : Word) (us : List (BitVec s.cfg.cu.bits)), RegInv s →
    s.rst = false → us.length < 2 ^ 64 → UnitsAt s.view s.cfg.cu start us →
    ∃ t, execThenRun (.scann start (BitVec.ofNat 64 us.length)) (us.length + 1) s = .next t ∧
      t.acc = zext64 (us.foldl (feed s.cfg.w s.cfg.cu s.cfg.xf) (accAt s.cfg.w s.acc)) ∧ t.cfg = s.cfg ∧
      t.ptr = start + BitVec.ofNat 64 us.length ∧ t.rem = 0 ∧ t.status.busy = false

/-- R99, R101, R102: HASHZ over admitted, stable units, the first 0 after `us`, takes k + 1 scan steps and ends with
BUSY = 0, PTR at the sentinel, REM = 0 and ACC the hash of the k units before the sentinel. -/
def Obligations.HashzEndsWithTheHash : Prop :=
  ∀ (s : State) (cf : Cfg) (start : Word) (us : List (BitVec cf.cu.bits)),
    s.rst = false → us.length < 2 ^ 64 → UnitsAt s.view cf.cu start (us ++ [0]) → (∀ u ∈ us, u ≠ 0) →
    ∃ t, execThenRun (.hashz cf start) (us.length + 1) s = .next t ∧
      (hashOut t).toNat = natHash cf.w cf.cu cf.xf (us.map BitVec.toNat) ∧ t.cfg = cf ∧
      t.ptr = start + BitVec.ofNat 64 us.length ∧ t.rem = 0 ∧
      t.status = { busy := false, ill := s.status.ill, mode := .terminated } ∧
      t.pending = s.pending ∧ t.view = s.view

/-- R97, R99, R102: SCANZ over admitted, stable units continues the fold from ACC over the units before the
sentinel. -/
def Obligations.ScanzContinuesTheFold : Prop :=
  ∀ (s : State) (start : Word) (us : List (BitVec s.cfg.cu.bits)), RegInv s →
    s.rst = false → us.length < 2 ^ 64 → UnitsAt s.view s.cfg.cu start (us ++ [0]) → (∀ u ∈ us, u ≠ 0) →
    ∃ t, execThenRun (.scanz start) (us.length + 1) s = .next t ∧
      t.acc = zext64 (us.foldl (feed s.cfg.w s.cfg.cu s.cfg.xf) (accAt s.cfg.w s.acc)) ∧ t.cfg = s.cfg ∧
      t.ptr = start + BitVec.ofNat 64 us.length ∧ t.rem = 0 ∧ t.status.busy = false

/-- The spec's own derivation in 42_iterator §5 (R103): over a sentinel-free sequence followed by a 0, HASHZ and HASHN
with the true length end with the same ACC. -/
def Obligations.TerminatedAndSizedScansAgree : Prop :=
  ∀ (s : State) (cf : Cfg) (start : Word) (us : List (BitVec cf.cu.bits)),
    s.rst = false → us.length < 2 ^ 64 → UnitsAt s.view cf.cu start (us ++ [0]) → (∀ u ∈ us, u ≠ 0) →
    ∃ t u, execThenRun (.hashz cf start) (us.length + 1) s = .next t ∧
      execThenRun (.hashn cf start (BitVec.ofNat 64 us.length)) (us.length + 1) s = .next u ∧
      t.status.busy = false ∧ u.status.busy = false ∧ t.acc = u.acc

/-- The spec's own derivation in 42_iterator §5 (R107): a HASHN over `xs` followed by a SCANN over `ys` ends with the
ACC of one HASHN over `xs ++ ys`. -/
def Obligations.ChainedScansHashTheConcatenation : Prop :=
  ∀ (s : State) (cf : Cfg) (a b c : Word) (xs ys : List (BitVec cf.cu.bits)),
    s.rst = false → xs.length + ys.length < 2 ^ 64 →
    UnitsAt s.view cf.cu a xs → UnitsAt s.view cf.cu b ys → UnitsAt s.view cf.cu c (xs ++ ys) →
    ∃ m t u, execThenRun (.hashn cf a (BitVec.ofNat 64 xs.length)) (xs.length + 1) s = .next m ∧
      execThenRun (.scann b (BitVec.ofNat 64 ys.length)) (ys.length + 1) m = .next t ∧
      execThenRun (.hashn cf c (BitVec.ofNat 64 (xs.length + ys.length))) (xs.length + ys.length + 1) s = .next u ∧
      t.status.busy = false ∧ u.status.busy = false ∧ t.acc = u.acc

/-- R106, R112: a terminated scan that meets only admitted, nonzero, stable units goes on: after any number k of them
BUSY is still 1, PTR has advanced by k and the presented commands are still held. -/
def Obligations.TerminatedScanGoesOnWithoutSentinel : Prop :=
  ∀ (s : State) (us : List (BitVec s.cfg.cu.bits)),
    s.rst = false → s.status.busy = true → s.status.mode = .terminated → s.racing = [] →
    UnitsAt s.view s.cfg.cu s.ptr us → (∀ u ∈ us, u ≠ 0) →
    ∃ t, runSteps us.length s = .next t ∧ t.status.busy = true ∧ t.ptr = s.ptr + BitVec.ofNat 64 us.length ∧
      t.pending = s.pending

/-- The spec's own derivation in 41_hash_engine §5 (R87): INIT followed on the port by any MIXBs, UNITs and NOPs
leaves in ACC the fold of mix over BASIS(W) and the whole byte stream, one step a command, and nothing but ACC, CFG
and the port has changed. -/
def Obligations.PortComputationIsTheByteFold : Prop :=
  ∀ (s : State) (cf : Cfg) (is : List Instr) (rest : List Command),
    s.rst = false → s.status.busy = false → (Instr.init cf).wellFormed = true → (∀ i ∈ is, feedsOperand i = true) →
    s.pending = encode (.init cf) :: is.map encode ++ rest →
    ∃ t, runSteps (is.length + 1) s = .next t ∧
      t.acc = zext64 ((is.flatMap (streamBytes cf)).foldl (mix cf.w) (basis cf.w)) ∧
      t = { s with cfg := cf, acc := t.acc, pending := rest }

/-- R137, R129: the computation of a HASHN on the port, over admitted, stable units, with nothing behind it or a
command that begins another computation, reaches its end; there its result is the hash of the units, ILL is as before
and the commands behind it are still presented. That a computation's last command is judged by what is presented
(`ownCommands`, `Ended`, `EndOfComputation`) is the model's reading of R14 and R137 (log entry 20, DEDUCED). -/
def Obligations.HashnComputationReachesItsEnd : Prop :=
  ∀ (s : State) (cf : Cfg) (start : Word) (us : List (BitVec cf.cu.bits)) (rest : List Command),
    s.rst = false → s.status.busy = false → cf.legalWith Config.hasXfUser = true →
    s.pending = encode (.hashn cf start (BitVec.ofNat 64 us.length)) :: rest → ownCommands rest = [] →
    us.length < 2 ^ 64 → UnitsAt s.view cf.cu start us →
    ∃ t, EndOfComputation s t ∧ (result t).toNat = natHash cf.w cf.cu cf.xf (us.map BitVec.toNat) ∧ t.cfg = cf ∧
      faultRecord t = s.status.ill ∧ t.pending = rest

/-! ### Invariants and whole-machine rules -/

/-- The reset state meets the invariant, whatever NATIVE_W is (R18, R36). -/
def Obligations.ResetMeetsTheInvariant : Prop := ∀ native : Width, MachineInv (State.resetWith native)

/-- R18, R22, R29, R38: every step from any state that meets the invariant gives a state that meets it: in 32-bit mode
ACC[63:32] = 0, the user transform is held only if implemented, REM = 0 in terminated mode, the view and the marks are
in canonical form. -/
def Obligations.StepKeepsTheInvariant : Prop :=
  ∀ s t : State, MachineInv s → step s = .next t → MachineInv t

/-- Presenting a command, asserting rst, an agent's write and a new view in canonical form keep the invariant. -/
def Obligations.OutsideActionsKeepTheInvariant : Prop :=
  ∀ s : State, MachineInv s →
    (∀ c, MachineInv (presentCommand c s)) ∧ MachineInv (assertReset s) ∧
    (∀ cu a v, MachineInv (agentWrite cu a v s)) ∧ (∀ iv, Memory.wf iv = true → MachineInv (supplyView iv s))

/-- R25: an illegal command sets ILL and nothing else makes it 1; without a reset a set ILL stays set; a reset clears
it; no step reads it: with ILL set beforehand, everything but ILL comes out the same. The first part is R25's setting
and clearing, the second its 'No command reads it'. Where the step reads a raced unit, the second part holds because
both steps take the same draw, which is the model's choice (log entry 19), not the spec's. -/
def Obligations.IllIsStickyUntilReset : Prop :=
  (∀ s t : State, step s = .next t →
    (s.rst = true → t.status.ill = false) ∧
    (s.rst = false → s.status.ill = true → t.status.ill = true) ∧
    (s.status.ill = false → (t.status.ill = true ↔
      s.rst = false ∧ s.status.busy = false ∧
        ∃ c cs, s.pending = c :: cs ∧ ¬ Legal Config.hasXfUser c.cmd.toNat))) ∧
  (∀ s : State, s.rst = false →
    step { s with status := { s.status with ill := true } } =
      mapNext (fun t => { t with status := { t.status with ill := true } }) (step s))

/-- The spec's own derivation in 41_hash_engine §5 (R88), with R19: CFG changes only by a reset or by an accepted
INIT, HASHN or HASHZ, and each of these also loads ACC with BASIS of the width it latches. -/
def Obligations.CfgIsWrittenOnlyWithBasis : Prop :=
  ∀ s t : State, step s = .next t → t.cfg ≠ s.cfg →
    t.acc.toNat = natBasis t.cfg.w ∧
    (s.rst = true ∨ (s.status.busy = false ∧ ∃ c cs i, s.pending = c :: cs ∧ decode c = .command i ∧
      (i = .init t.cfg ∨ (∃ a n, i = .hashn t.cfg a n) ∨ ∃ a, i = .hashz t.cfg a)))

/-- R24: from BUSY = 0, a step leaves BUSY = 1 exactly when it accepts SCANN, SCANZ, HASHN or HASHZ; from BUSY = 1, it
leaves BUSY = 0 exactly when it is a reset or the scan step that ends the scan (REM = 0, or the sentinel read); while
BUSY = 1 the port accepts nothing. -/
def Obligations.BusyRisesAndFallsOnlyByScans : Prop :=
  ∀ s t : State, step s = .next t →
    (s.status.busy = false → (t.status.busy = true ↔
      s.rst = false ∧ ∃ c cs i, s.pending = c :: cs ∧ decode c = .command i ∧
        ((∃ a n, i = .scann a n) ∨ (∃ a, i = .scanz a) ∨ (∃ cf a n, i = .hashn cf a n) ∨ ∃ cf a, i = .hashz cf a))) ∧
    (s.status.busy = true → (t.status.busy = false ↔
      s.rst = true ∨ (s.status.mode = .sized ∧ s.rem = 0) ∨
        (s.status.mode = .terminated ∧ ∃ d, unitRead s s.cfg.cu s.ptr = some (0, d)))) ∧
    (s.status.busy = true → t.pending = s.pending)

/-- R35, R19, R23: the outputs are the registers: status_out is BUSY, ILL, MODE from bit 0 up, cfg_out is W, CUW, XF
from bit 0 up, cmd_ready is NOT BUSY. -/
def Obligations.OutputsShowTheRegisters : Prop :=
  ∀ s : State,
    (statusOut s).toNat = (if s.status.busy then 1 else 0) + (if s.status.ill then 2 else 0) +
      (match s.status.mode with | .sized => 0 | .terminated => 4) ∧
    (cfgOut s).toNat = (match s.cfg.w with | .w32 => 0 | .w64 => 1) +
      (match s.cfg.cu with | .cu8 => 0 | .cu16 => 2 | .cu32 => 4) +
      (match s.cfg.xf with | .identity => 0 | .asciiToLower => 8 | .asciiToUpper => 16 | .user => 24) ∧
    hashOut s = s.acc ∧ ptrOut s = s.ptr ∧ remOut s = s.rem ∧ (cmdReady s = true ↔ s.status.busy = false)

/-! ### The platform and the assembler -/

/-- 60_exceptions §3 (R10, R121): a platform has at least one instance, all at reset; a step of one instance is that
instance's own step and leaves every other instance as it was, and what an instance does without a racing read is what
it would do alone, whatever draws the others have taken. That one instance steps at a time is the model's choice (log
entry 14), and so is the numbering of the draws by one counter of the platform (log entry 19). -/
def Obligations.InstancesShareNoState : Prop :=
  (0 < platformReset.instances.length ∧ ∀ s ∈ platformReset.instances, s = State.reset) ∧
  (∀ (k : Nat) (p : Platform) (s t : State), p.instances[k]? = some s → step (withDraws p.draws s) = .next t →
    ∃ q, platformStep k p = .next q ∧ q.draws = t.draws ∧ q.instances.length = p.instances.length ∧
      q.instances[k]? = some t ∧ ∀ j, j ≠ k → q.instances[j]? = p.instances[j]?) ∧
  (∀ (n : Nat) (s : State), s.racing = [] → step (withDraws n s) = mapNext (withDraws n) (step s))

/-- R69 (with the ASCII codes it takes from general knowledge): UNITS, MIXBS, UNITSTR and HASHV expand to their
commands in order, with the words of R68; UNITS and MIXBS need at least one operand; a byte of 256 or more and a
number of 2^64 or more are refused. That an operand the command ignores is written as 0 is the model's choice (log
entry 21). -/
def Obligations.PseudoCommandsExpand : Prop :=
  (∀ vs : List Nat, vs ≠ [] → (∀ v ∈ vs, v < 2 ^ 64) →
    assembleLine (.units vs) = some (vs.map fun v => { cmd := 3, opa := BitVec.ofNat 64 v, opb := 0 })) ∧
  (∀ bs : List Nat, bs ≠ [] → (∀ b ∈ bs, b < 256) →
    assembleLine (.mixbs bs) = some (bs.map fun b => { cmd := 2, opa := BitVec.ofNat 64 b, opb := 0 })) ∧
  (∀ cs : List Char, (∀ c ∈ cs, c.toNat < 128) →
    assembleLine (.unitstr cs) = some (cs.map fun c => { cmd := 3, opa := BitVec.ofNat 64 c.toNat, opb := 0 })) ∧
  (∀ (cf : Cfg) (vs : List Nat), (∀ v ∈ vs, v < 2 ^ 64) →
    assembleLine (.hashv cf vs) =
      some (encode (.init cf) :: vs.map fun v => { cmd := 3, opa := BitVec.ofNat 64 v, opb := 0 })) ∧
  assembleLine (.units []) = none ∧ assembleLine (.mixbs []) = none ∧
  (∀ bs : List Nat, (∃ b ∈ bs, 256 ≤ b) → assembleLine (.mixbs bs) = none) ∧
  (∀ vs : List Nat, (∃ v ∈ vs, 2 ^ 64 ≤ v) → assembleLine (.units vs) = none)
end

