-- ==== Sys2Proof/Laws/Decode.lean ====
section
/-!
SUPPORT. The fields of a command word: as bit vectors, as the spec's numbers, and through the encoder.
-/

namespace Sys2Proof

open Sys2Proof.Machine

/-! ### The fields of a word the encoder writes (R54) -/

theorem rsvField_cmdWord (cf : BitVec 5) (op : BitVec 4) : rsvField (cmdWord cf op) = 0 := by
  revert cf op
  decide

theorem cfField_cmdWord (cf : BitVec 5) (op : BitVec 4) : cfField (cmdWord cf op) = cf := by
  revert cf op
  decide

theorem opField_cmdWord (cf : BitVec 5) (op : BitVec 4) : opField (cmdWord cf op) = op := by
  revert cf op
  decide

/-- A word is its three fields. -/
theorem cmdWord_fields (c : CmdWord) : c = (rsvField c ++ cfField c ++ opField c : BitVec 32) := by
  apply BitVec.eq_of_toNat_eq
  have := c.isLt
  rw [BitVec.toNat_append, BitVec.toNat_append]
  simp only [rsvField, cfField, opField, BitVec.extractLsb'_toNat]
  rw [← Nat.shiftLeft_add_eq_or_of_lt (by omega), ← Nat.shiftLeft_add_eq_or_of_lt (by omega)]
  simp only [Nat.shiftRight_eq_div_pow, Nat.shiftLeft_eq]
  omega

/-! ### The configuration field (R56 to R58) -/

theorem cfgOfBits_cfgBits {user : Bool} {cf : Cfg} (h : cf.legalWith user = true) :
    cfgOfBits user (cfgBits cf) = .ok cf := by
  obtain ⟨w, cu, xf⟩ := cf
  revert h
  cases user <;> cases w <;> cases cu <;> cases xf <;> decide

/-- What `cfgOfBits` accepts is legal, and has exactly those bits. -/
theorem cfgOfBits_ok {user : Bool} {b : BitVec 5} {cf : Cfg} (h : cfgOfBits user b = .ok cf) :
    cf.legalWith user = true ∧ cfgBits cf = b := by
  have all : ∀ (user : Bool) (b : BitVec 5),
      (match cfgOfBits user b with | .ok g => g.legalWith user && cfgBits g == b | .error _ => true) = true := by
    decide
  have := all user b
  rw [h] at this
  simpa using this

/-! ### The fields as the spec's numbers (R11) -/

theorem opField_toNat (c : CmdWord) : (opField c).toNat = natField c.toNat 0 4 := by
  simp [opField, natField, BitVec.extractLsb'_toNat]

theorem cfField_toNat (c : CmdWord) : (cfField c).toNat = natField c.toNat 4 5 := by
  simp [cfField, natField, BitVec.extractLsb'_toNat, Nat.shiftRight_eq_div_pow]

theorem rsvField_toNat (c : CmdWord) : (rsvField c).toNat = natField c.toNat 9 23 := by
  simp [rsvField, natField, BitVec.extractLsb'_toNat, Nat.shiftRight_eq_div_pow]

/-- A field of a field is a field. -/
theorem natField_natField (v a b c d : Nat) (h : c + d ≤ b) : natField (natField v a b) c d = natField v (a + c) d := by
  have e : 2 ^ b = 2 ^ c * (2 ^ d * 2 ^ (b - c - d)) := by
    rw [← Nat.pow_add, ← Nat.pow_add]
    congr 1
    omega
  unfold natField
  rw [e, Nat.mod_mul_right_div_self, Nat.mod_mul_right_mod, Nat.div_div_eq_div_mul, ← Nat.pow_add]

end Sys2Proof
end

