-- ==== Sys2Proof/Laws/State.lean ====
section
/-!
SUPPORT. What each update of `State` writes, one lemma a field, so that no proof unfolds an update.
-/

namespace Sys2Proof.Machine

/-! ### beginComputation -/

@[simp] theorem beginComputation_acc (cf : Cfg) (s : State) : (beginComputation cf s).acc = zext64 (basis cf.w) := rfl
@[simp] theorem beginComputation_cfg (cf : Cfg) (s : State) : (beginComputation cf s).cfg = cf := rfl
@[simp] theorem beginComputation_status (cf : Cfg) (s : State) : (beginComputation cf s).status = s.status := rfl
@[simp] theorem beginComputation_ptr (cf : Cfg) (s : State) : (beginComputation cf s).ptr = s.ptr := rfl
@[simp] theorem beginComputation_rem (cf : Cfg) (s : State) : (beginComputation cf s).rem = s.rem := rfl
@[simp] theorem beginComputation_rst (cf : Cfg) (s : State) : (beginComputation cf s).rst = s.rst := rfl
@[simp] theorem beginComputation_pending (cf : Cfg) (s : State) : (beginComputation cf s).pending = s.pending := rfl
@[simp] theorem beginComputation_view (cf : Cfg) (s : State) : (beginComputation cf s).view = s.view := rfl
@[simp] theorem beginComputation_racing (cf : Cfg) (s : State) : (beginComputation cf s).racing = s.racing := rfl
@[simp] theorem beginComputation_draws (cf : Cfg) (s : State) : (beginComputation cf s).draws = s.draws := rfl

/-! ### startScan -/

@[simp] theorem startScan_acc (m : ScanMode) (a n : Word) (s : State) : (startScan m a n s).acc = s.acc := rfl
@[simp] theorem startScan_cfg (m : ScanMode) (a n : Word) (s : State) : (startScan m a n s).cfg = s.cfg := rfl
@[simp] theorem startScan_status (m : ScanMode) (a n : Word) (s : State) :
    (startScan m a n s).status = { s.status with mode := m, busy := true } := rfl
@[simp] theorem startScan_ptr (m : ScanMode) (a n : Word) (s : State) : (startScan m a n s).ptr = a := rfl
@[simp] theorem startScan_rem (m : ScanMode) (a n : Word) (s : State) : (startScan m a n s).rem = n := rfl
@[simp] theorem startScan_rst (m : ScanMode) (a n : Word) (s : State) : (startScan m a n s).rst = s.rst := rfl
@[simp] theorem startScan_pending (m : ScanMode) (a n : Word) (s : State) :
    (startScan m a n s).pending = s.pending := rfl
@[simp] theorem startScan_view (m : ScanMode) (a n : Word) (s : State) : (startScan m a n s).view = s.view := rfl
@[simp] theorem startScan_racing (m : ScanMode) (a n : Word) (s : State) : (startScan m a n s).racing = [] := rfl
@[simp] theorem startScan_draws (m : ScanMode) (a n : Word) (s : State) : (startScan m a n s).draws = s.draws := rfl

/-! ### endScan -/

@[simp] theorem endScan_acc (s : State) : (endScan s).acc = s.acc := rfl
@[simp] theorem endScan_cfg (s : State) : (endScan s).cfg = s.cfg := rfl
@[simp] theorem endScan_status (s : State) : (endScan s).status = { s.status with busy := false } := rfl
@[simp] theorem endScan_ptr (s : State) : (endScan s).ptr = s.ptr := rfl
@[simp] theorem endScan_rem (s : State) : (endScan s).rem = s.rem := rfl
@[simp] theorem endScan_rst (s : State) : (endScan s).rst = s.rst := rfl
@[simp] theorem endScan_pending (s : State) : (endScan s).pending = s.pending := rfl
@[simp] theorem endScan_view (s : State) : (endScan s).view = s.view := rfl
@[simp] theorem endScan_racing (s : State) : (endScan s).racing = s.racing := rfl
@[simp] theorem endScan_draws (s : State) : (endScan s).draws = s.draws := rfl

/-! ### raiseIllegal -/

@[simp] theorem raiseIllegal_acc (s : State) : (raiseIllegal s).acc = s.acc := rfl
@[simp] theorem raiseIllegal_cfg (s : State) : (raiseIllegal s).cfg = s.cfg := rfl
@[simp] theorem raiseIllegal_status (s : State) : (raiseIllegal s).status = { s.status with ill := true } := rfl
@[simp] theorem raiseIllegal_ptr (s : State) : (raiseIllegal s).ptr = s.ptr := rfl
@[simp] theorem raiseIllegal_rem (s : State) : (raiseIllegal s).rem = s.rem := rfl
@[simp] theorem raiseIllegal_rst (s : State) : (raiseIllegal s).rst = s.rst := rfl
@[simp] theorem raiseIllegal_pending (s : State) : (raiseIllegal s).pending = s.pending := rfl
@[simp] theorem raiseIllegal_view (s : State) : (raiseIllegal s).view = s.view := rfl
@[simp] theorem raiseIllegal_racing (s : State) : (raiseIllegal s).racing = s.racing := rfl
@[simp] theorem raiseIllegal_draws (s : State) : (raiseIllegal s).draws = s.draws := rfl

/-! ### resetStep -/

@[simp] theorem resetStep_acc (s : State) : (resetStep s).acc = zext64 (basis Config.nativeW) := rfl
@[simp] theorem resetStep_cfg (s : State) :
    (resetStep s).cfg = { w := Config.nativeW, cu := .cu8, xf := .identity } := rfl
@[simp] theorem resetStep_status (s : State) :
    (resetStep s).status = { busy := false, ill := false, mode := .sized } := rfl
@[simp] theorem resetStep_ptr (s : State) : (resetStep s).ptr = 0 := rfl
@[simp] theorem resetStep_rem (s : State) : (resetStep s).rem = 0 := rfl
@[simp] theorem resetStep_rst (s : State) : (resetStep s).rst = false := rfl
@[simp] theorem resetStep_pending (s : State) : (resetStep s).pending = s.pending := rfl
@[simp] theorem resetStep_view (s : State) : (resetStep s).view = s.view := rfl
@[simp] theorem resetStep_racing (s : State) : (resetStep s).racing = s.racing := rfl
@[simp] theorem resetStep_draws (s : State) : (resetStep s).draws = s.draws := rfl

/-! ### acceptCommand -/

@[simp] theorem acceptCommand_acc (s : State) : (acceptCommand s).acc = s.acc := rfl
@[simp] theorem acceptCommand_cfg (s : State) : (acceptCommand s).cfg = s.cfg := rfl
@[simp] theorem acceptCommand_status (s : State) : (acceptCommand s).status = s.status := rfl
@[simp] theorem acceptCommand_ptr (s : State) : (acceptCommand s).ptr = s.ptr := rfl
@[simp] theorem acceptCommand_rem (s : State) : (acceptCommand s).rem = s.rem := rfl
@[simp] theorem acceptCommand_rst (s : State) : (acceptCommand s).rst = s.rst := rfl
@[simp] theorem acceptCommand_pending (s : State) : (acceptCommand s).pending = s.pending.tail := rfl
@[simp] theorem acceptCommand_view (s : State) : (acceptCommand s).view = s.view := rfl
@[simp] theorem acceptCommand_racing (s : State) : (acceptCommand s).racing = s.racing := rfl
@[simp] theorem acceptCommand_draws (s : State) : (acceptCommand s).draws = s.draws := rfl

/-! ### presentNext -/

@[simp] theorem presentNext_acc (c : Command) (s : State) : (presentNext c s).acc = s.acc := rfl
@[simp] theorem presentNext_cfg (c : Command) (s : State) : (presentNext c s).cfg = s.cfg := rfl
@[simp] theorem presentNext_status (c : Command) (s : State) :
    (presentNext c s).status = { s.status with busy := false } := rfl
@[simp] theorem presentNext_ptr (c : Command) (s : State) : (presentNext c s).ptr = s.ptr := rfl
@[simp] theorem presentNext_rem (c : Command) (s : State) : (presentNext c s).rem = s.rem := rfl
@[simp] theorem presentNext_rst (c : Command) (s : State) : (presentNext c s).rst = false := rfl
@[simp] theorem presentNext_pending (c : Command) (s : State) : (presentNext c s).pending = c :: s.pending := rfl
@[simp] theorem presentNext_view (c : Command) (s : State) : (presentNext c s).view = s.view := rfl
@[simp] theorem presentNext_racing (c : Command) (s : State) : (presentNext c s).racing = s.racing := rfl
@[simp] theorem presentNext_draws (c : Command) (s : State) : (presentNext c s).draws = s.draws := rfl

/-! ### mixRead -/

@[simp] theorem mixRead_acc (s : State) (u : BitVec s.cfg.cu.bits) : (mixRead s u).acc = feedAcc s.cfg s.acc u := rfl
@[simp] theorem mixRead_cfg (s : State) (u : BitVec s.cfg.cu.bits) : (mixRead s u).cfg = s.cfg := rfl
@[simp] theorem mixRead_status (s : State) (u : BitVec s.cfg.cu.bits) : (mixRead s u).status = s.status := rfl
@[simp] theorem mixRead_ptr (s : State) (u : BitVec s.cfg.cu.bits) : (mixRead s u).ptr = s.ptr + 1 := rfl
@[simp] theorem mixRead_rem (s : State) (u : BitVec s.cfg.cu.bits) : (mixRead s u).rem = s.rem := rfl
@[simp] theorem mixRead_rst (s : State) (u : BitVec s.cfg.cu.bits) : (mixRead s u).rst = s.rst := rfl
@[simp] theorem mixRead_pending (s : State) (u : BitVec s.cfg.cu.bits) : (mixRead s u).pending = s.pending := rfl
@[simp] theorem mixRead_view (s : State) (u : BitVec s.cfg.cu.bits) : (mixRead s u).view = s.view := rfl
@[simp] theorem mixRead_racing (s : State) (u : BitVec s.cfg.cu.bits) : (mixRead s u).racing = s.racing := rfl
@[simp] theorem mixRead_draws (s : State) (u : BitVec s.cfg.cu.bits) : (mixRead s u).draws = s.draws := rfl

/-! ### presentCommand -/

@[simp] theorem presentCommand_acc (c : Command) (s : State) : (presentCommand c s).acc = s.acc := rfl
@[simp] theorem presentCommand_cfg (c : Command) (s : State) : (presentCommand c s).cfg = s.cfg := rfl
@[simp] theorem presentCommand_status (c : Command) (s : State) : (presentCommand c s).status = s.status := rfl
@[simp] theorem presentCommand_ptr (c : Command) (s : State) : (presentCommand c s).ptr = s.ptr := rfl
@[simp] theorem presentCommand_rem (c : Command) (s : State) : (presentCommand c s).rem = s.rem := rfl
@[simp] theorem presentCommand_rst (c : Command) (s : State) : (presentCommand c s).rst = s.rst := rfl
@[simp] theorem presentCommand_pending (c : Command) (s : State) :
    (presentCommand c s).pending = s.pending ++ [c] := rfl
@[simp] theorem presentCommand_view (c : Command) (s : State) : (presentCommand c s).view = s.view := rfl
@[simp] theorem presentCommand_racing (c : Command) (s : State) : (presentCommand c s).racing = s.racing := rfl
@[simp] theorem presentCommand_draws (c : Command) (s : State) : (presentCommand c s).draws = s.draws := rfl

/-! ### assertReset -/

@[simp] theorem assertReset_acc (s : State) : (assertReset s).acc = s.acc := rfl
@[simp] theorem assertReset_cfg (s : State) : (assertReset s).cfg = s.cfg := rfl
@[simp] theorem assertReset_status (s : State) : (assertReset s).status = s.status := rfl
@[simp] theorem assertReset_ptr (s : State) : (assertReset s).ptr = s.ptr := rfl
@[simp] theorem assertReset_rem (s : State) : (assertReset s).rem = s.rem := rfl
@[simp] theorem assertReset_rst (s : State) : (assertReset s).rst = true := rfl
@[simp] theorem assertReset_pending (s : State) : (assertReset s).pending = s.pending := rfl
@[simp] theorem assertReset_view (s : State) : (assertReset s).view = s.view := rfl
@[simp] theorem assertReset_racing (s : State) : (assertReset s).racing = s.racing := rfl
@[simp] theorem assertReset_draws (s : State) : (assertReset s).draws = s.draws := rfl

/-! ### supplyView -/

@[simp] theorem supplyView_acc (iv : InputView) (s : State) : (supplyView iv s).acc = s.acc := rfl
@[simp] theorem supplyView_cfg (iv : InputView) (s : State) : (supplyView iv s).cfg = s.cfg := rfl
@[simp] theorem supplyView_status (iv : InputView) (s : State) : (supplyView iv s).status = s.status := rfl
@[simp] theorem supplyView_ptr (iv : InputView) (s : State) : (supplyView iv s).ptr = s.ptr := rfl
@[simp] theorem supplyView_rem (iv : InputView) (s : State) : (supplyView iv s).rem = s.rem := rfl
@[simp] theorem supplyView_rst (iv : InputView) (s : State) : (supplyView iv s).rst = s.rst := rfl
@[simp] theorem supplyView_pending (iv : InputView) (s : State) : (supplyView iv s).pending = s.pending := rfl
@[simp] theorem supplyView_view (iv : InputView) (s : State) : (supplyView iv s).view =
    if s.status.busy then revalueView iv s.view else iv := rfl
@[simp] theorem supplyView_racing (iv : InputView) (s : State) :
    (supplyView iv s).racing = if s.status.busy then (cells s.view s.cfg.cu).map Prod.fst else s.racing := rfl
@[simp] theorem supplyView_draws (iv : InputView) (s : State) : (supplyView iv s).draws = s.draws := rfl

/-! ### withDraws -/

@[simp] theorem withDraws_acc (n : Nat) (s : State) : (withDraws n s).acc = s.acc := rfl
@[simp] theorem withDraws_cfg (n : Nat) (s : State) : (withDraws n s).cfg = s.cfg := rfl
@[simp] theorem withDraws_status (n : Nat) (s : State) : (withDraws n s).status = s.status := rfl
@[simp] theorem withDraws_ptr (n : Nat) (s : State) : (withDraws n s).ptr = s.ptr := rfl
@[simp] theorem withDraws_rem (n : Nat) (s : State) : (withDraws n s).rem = s.rem := rfl
@[simp] theorem withDraws_rst (n : Nat) (s : State) : (withDraws n s).rst = s.rst := rfl
@[simp] theorem withDraws_pending (n : Nat) (s : State) : (withDraws n s).pending = s.pending := rfl
@[simp] theorem withDraws_view (n : Nat) (s : State) : (withDraws n s).view = s.view := rfl
@[simp] theorem withDraws_racing (n : Nat) (s : State) : (withDraws n s).racing = s.racing := rfl
@[simp] theorem withDraws_draws (n : Nat) (s : State) : (withDraws n s).draws = n := rfl

/-! ### Reset -/

@[simp] theorem resetWith_acc (w : Width) : (State.resetWith w).acc = zext64 (basis w) := rfl
@[simp] theorem resetWith_cfg (w : Width) : (State.resetWith w).cfg = { w := w, cu := .cu8, xf := .identity } := rfl
@[simp] theorem resetWith_status (w : Width) :
    (State.resetWith w).status = { busy := false, ill := false, mode := .sized } := rfl
@[simp] theorem resetWith_ptr (w : Width) : (State.resetWith w).ptr = 0 := rfl
@[simp] theorem resetWith_rem (w : Width) : (State.resetWith w).rem = 0 := rfl
@[simp] theorem resetWith_view (w : Width) : (State.resetWith w).view = { cu8 := [], cu16 := [], cu32 := [] } := rfl
@[simp] theorem resetWith_racing (w : Width) : (State.resetWith w).racing = [] := rfl

end Sys2Proof.Machine
end

