-- ==== Sys2Proof/Laws/View.lean ====
section
/-!
SUPPORT. The input view: a read after a write, writes elsewhere, and that every operation on it keeps its canonical
form (R38). One spec lemma for the read primitive (R40, R49).
-/

namespace Sys2Proof.Machine

/-! ### Cells -/

@[simp] theorem lookupCell_insertCell_same {α : Type} (a : Nat) (v : α) (l : List (Nat × α)) :
    lookupCell a (insertCell a v l) = some v := by
  induction l with
  | nil => simp [insertCell, lookupCell]
  | cons c rest ih =>
    obtain ⟨k, u⟩ := c
    simp only [insertCell]
    split
    · simp [lookupCell]
    · split
      · simp [lookupCell]
      · have : k ≠ a := by omega
        simp [lookupCell, this, ih]

theorem lookupCell_insertCell_other {α : Type} {a b : Nat} (h : b ≠ a) (v : α) (l : List (Nat × α)) :
    lookupCell b (insertCell a v l) = lookupCell b l := by
  induction l with
  | nil => simp [insertCell, lookupCell, h.symm]
  | cons c rest ih =>
    obtain ⟨k, u⟩ := c
    simp only [insertCell]
    split
    · simp [lookupCell, h.symm]
    · split
      · rename_i _ hk
        subst hk
        simp [lookupCell, h.symm]
      · simp only [lookupCell, ih]

/-- The bound of a rising list can be lowered. -/
theorem cellsRise_mono {α : Type} {lo lo' : Nat} (h : lo' ≤ lo) {l : List (Nat × α)} (hl : cellsRise lo l = true) :
    cellsRise lo' l = true := by
  cases l with
  | nil => rfl
  | cons c rest =>
    simp only [cellsRise, Bool.and_eq_true, decide_eq_true_eq] at hl ⊢
    exact ⟨⟨by omega, hl.1.2⟩, hl.2⟩

theorem cellsRise_insertCell {α : Type} {lo a : Nat} (v : α) {l : List (Nat × α)} (hlo : lo ≤ a) (ha : a < 2 ^ 64)
    (hl : cellsRise lo l = true) : cellsRise lo (insertCell a v l) = true := by
  induction l generalizing lo with
  | nil => simp [insertCell, cellsRise, hlo]; omega
  | cons c rest ih =>
    obtain ⟨k, u⟩ := c
    simp only [cellsRise, Bool.and_eq_true, decide_eq_true_eq] at hl
    simp only [insertCell]
    split
    · simp only [cellsRise, Bool.and_eq_true, decide_eq_true_eq]
      exact ⟨⟨hlo, ha⟩, ⟨by omega, hl.1.2⟩, hl.2⟩
    · split
      · rename_i _ hk
        subst hk
        simp only [cellsRise, Bool.and_eq_true, decide_eq_true_eq]
        exact ⟨⟨hlo, ha⟩, hl.2⟩
      · simp only [cellsRise, Bool.and_eq_true, decide_eq_true_eq]
        exact ⟨hl.1, ih (by omega) hl.2⟩

/-- Revalued cells list the same addresses. -/
theorem lookupCell_revalueCells {α : Type} (a : Nat) (new old : List (Nat × α)) :
    (lookupCell a (revalueCells new old)).isSome = (lookupCell a old).isSome := by
  induction old with
  | nil => rfl
  | cons c rest ih =>
    simp only [revalueCells, List.map_cons, lookupCell] at ih ⊢
    split
    · rfl
    · exact ih

theorem cellsRise_revalueCells {α : Type} {lo : Nat} (new : List (Nat × α)) {old : List (Nat × α)}
    (h : cellsRise lo old = true) : cellsRise lo (revalueCells new old) = true := by
  induction old generalizing lo with
  | nil => rfl
  | cons c rest ih =>
    simp only [revalueCells, List.map_cons, cellsRise, Bool.and_eq_true, decide_eq_true_eq] at h ih ⊢
    exact ⟨h.1, ih h.2⟩

/-- An address that is listed is among the listed addresses. -/
theorem mem_map_fst_of_lookupCell {α : Type} {a : Nat} {l : List (Nat × α)} (h : (lookupCell a l).isSome = true) :
    a ∈ l.map Prod.fst := by
  induction l with
  | nil => cases h
  | cons c rest ih =>
    simp only [lookupCell] at h
    split at h
    · simp [*]
    · exact List.mem_cons_of_mem _ (ih h)

/-! ### Addresses -/

theorem mem_insertAddr {a b : Nat} {l : List Nat} : b ∈ insertAddr a l ↔ b = a ∨ b ∈ l := by
  induction l with
  | nil => simp [insertAddr]
  | cons k rest ih =>
    simp only [insertAddr]
    split
    · simp
    · split
      · rename_i _ hk
        simp [hk]
      · simp only [List.mem_cons, ih]
        tauto

theorem addrsRise_insertAddr {lo a : Nat} {l : List Nat} (hlo : lo ≤ a) (ha : a < 2 ^ 64)
    (hl : addrsRise lo l = true) : addrsRise lo (insertAddr a l) = true := by
  induction l generalizing lo with
  | nil => simp [insertAddr, addrsRise, hlo]; omega
  | cons k rest ih =>
    simp only [addrsRise, Bool.and_eq_true, decide_eq_true_eq] at hl
    simp only [insertAddr]
    split
    · simp only [addrsRise, Bool.and_eq_true, decide_eq_true_eq]
      exact ⟨⟨hlo, ha⟩, ⟨by omega, hl.1.2⟩, hl.2⟩
    · split
      · simp only [addrsRise, Bool.and_eq_true, decide_eq_true_eq]
        exact hl
      · simp only [addrsRise, Bool.and_eq_true, decide_eq_true_eq]
        exact ⟨hl.1, ih (by omega) hl.2⟩

/-- The addresses of rising cells rise. -/
theorem addrsRise_map_fst {α : Type} {lo : Nat} {l : List (Nat × α)} (h : cellsRise lo l = true) :
    addrsRise lo (l.map Prod.fst) = true := by
  induction l generalizing lo with
  | nil => rfl
  | cons c rest ih =>
    simp only [cellsRise, Bool.and_eq_true, decide_eq_true_eq] at h
    simp only [List.map_cons, addrsRise, Bool.and_eq_true, decide_eq_true_eq]
    exact ⟨h.1, ih h.2⟩

/-! ### The view -/

theorem Memory.wf_iff {iv : InputView} : Memory.wf iv = true ↔ ∀ cu, cellsRise 0 (cells iv cu) = true := by
  constructor
  · intro h cu
    simp only [Memory.wf, Bool.and_eq_true] at h
    cases cu
    · exact h.1.1
    · exact h.1.2
    · exact h.2
  · intro h
    simp only [Memory.wf, Bool.and_eq_true]
    exact ⟨⟨h .cu8, h .cu16⟩, h .cu32⟩

@[simp] theorem cells_withCells (iv : InputView) (cu : CuWidth) (l : List (Nat × BitVec cu.bits)) :
    cells (withCells iv cu l) cu = l := by
  cases cu <;> rfl

theorem cells_withCells_other (iv : InputView) {cu cu' : CuWidth} (h : cu' ≠ cu) (l : List (Nat × BitVec cu.bits)) :
    cells (withCells iv cu l) cu' = cells iv cu' := by
  cases cu <;> cases cu' <;> first | rfl | exact absurd rfl h

@[simp] theorem viewUnit_putUnit_same (iv : InputView) (cu : CuWidth) (a : Word) (v : BitVec cu.bits) :
    viewUnit (putUnit iv cu a v) cu a = some v := by
  simp [viewUnit, putUnit]

theorem viewUnit_putUnit_otherAddress (iv : InputView) (cu : CuWidth) {a b : Word} (h : b ≠ a) (v : BitVec cu.bits) :
    viewUnit (putUnit iv cu a v) cu b = viewUnit iv cu b := by
  have hn : b.toNat ≠ a.toNat := fun e => h (BitVec.eq_of_toNat_eq e)
  simp [viewUnit, putUnit, lookupCell_insertCell_other hn]

theorem viewUnit_putUnit_otherWidth (iv : InputView) {cu cu' : CuWidth} (h : cu' ≠ cu) (a b : Word)
    (v : BitVec cu.bits) : viewUnit (putUnit iv cu a v) cu' b = viewUnit iv cu' b := by
  simp [viewUnit, putUnit, cells_withCells_other iv h]

/-- Writing a unit keeps the canonical form. -/
theorem Memory.wf_putUnit {iv : InputView} (h : Memory.wf iv = true) (cu : CuWidth) (a : Word) (v : BitVec cu.bits) :
    Memory.wf (putUnit iv cu a v) = true := by
  rw [Memory.wf_iff] at h ⊢
  intro cu'
  by_cases e : cu' = cu
  · subst e
    simpa [putUnit] using cellsRise_insertCell v (Nat.zero_le _) a.isLt (h cu')
  · simpa [putUnit, cells_withCells_other iv e] using h cu'

/-- The reset state's view is in canonical form. -/
theorem Memory.wf_reset : Memory.wf State.reset.view = true := rfl

/-! ### A view supplied during a scan -/

@[simp] theorem cells_revalueView (new old : InputView) (cu : CuWidth) :
    cells (revalueView new old) cu = revalueCells (cells new cu) (cells old cu) := by
  cases cu <;> rfl

/-- Revaluing keeps admission. -/
@[simp] theorem admits_revalueView (new old : InputView) (cu : CuWidth) (a : Word) :
    admits (revalueView new old) cu a = admits old cu a := by
  simp [admits, viewUnit, lookupCell_revalueCells]

theorem Memory.wf_revalueView (new : InputView) {old : InputView} (h : Memory.wf old = true) :
    Memory.wf (revalueView new old) = true := by
  rw [Memory.wf_iff] at h ⊢
  intro cu
  rw [cells_revalueView]
  exact cellsRise_revalueCells _ (h cu)

/-- Writing an admitted unit keeps admission, of every width. -/
theorem admits_putUnit {iv : InputView} {cu : CuWidth} {a : Word} (h : admits iv cu a = true) (v : BitVec cu.bits)
    (cu' : CuWidth) (b : Word) : admits (putUnit iv cu a v) cu' b = admits iv cu' b := by
  by_cases e : cu' = cu
  · subst e
    by_cases eb : b = a
    · subst eb
      simpa [admits] using h.symm
    · simp [admits, viewUnit_putUnit_otherAddress iv cu' eb v]
  · simp [admits, viewUnit_putUnit_otherWidth iv e a b v]

/-! ### UnitRead -/

theorem unitRead_eq_none {s : State} {cu : CuWidth} {a : Word} :
    unitRead s cu a = none ↔ viewUnit s.view cu a = none := by
  unfold unitRead
  split
  · simp [*]
  · split <;> simp [*]

/-- A read of a stable unit gives its value and takes no draw. -/
theorem unitRead_stable {s : State} {cu : CuWidth} {a : Word} {v : BitVec cu.bits}
    (hv : viewUnit s.view cu a = some v) (hr : a.toNat ∉ s.racing) : unitRead s cu a = some (v, s.draws) := by
  simp [unitRead, hv, hr]

/-- A read of a unit another agent has changed is a draw. -/
theorem unitRead_racing {s : State} {cu : CuWidth} {a : Word} {v : BitVec cu.bits}
    (hv : viewUnit s.view cu a = some v) (hr : a.toNat ∈ s.racing) :
    unitRead s cu a = some (Config.draw cu s.draws, s.draws + 1) := by
  simp [unitRead, hv, hr]

/-- Everything a read can answer. -/
theorem unitRead_cases {s : State} {cu : CuWidth} {a : Word} {u : BitVec cu.bits} {d : Nat}
    (h : unitRead s cu a = some (u, d)) :
    ∃ v, viewUnit s.view cu a = some v ∧
      ((a.toNat ∉ s.racing ∧ u = v ∧ d = s.draws) ∨
        (a.toNat ∈ s.racing ∧ u = Config.draw cu s.draws ∧ d = s.draws + 1)) := by
  cases hv : viewUnit s.view cu a with
  | none => rw [unitRead_eq_none.mpr hv] at h; cases h
  | some v =>
    refine ⟨v, rfl, ?_⟩
    by_cases hr : a.toNat ∈ s.racing
    · rw [unitRead_racing hv hr] at h
      cases h
      exact .inr ⟨hr, rfl, rfl⟩
    · rw [unitRead_stable hv hr] at h
      cases h
      exact .inl ⟨hr, rfl, rfl⟩

end Sys2Proof.Machine
end

