-- ==== Sys2Proof/Laws/Steps.lean ====
section
/-!
SUPPORT. Everything a step can do: one equation for each way a step goes, and one inversion lemma for each kind of
step, which the proofs cite instead of unfolding `step`, `scanStep` or `exec`.
-/

namespace Sys2Proof.Machine

/-! ### Which kind of step (R13, R116) -/

theorem step_reset {s : State} (h : s.rst = true) : step s = .next (resetStep s) := by
  simp [step, h]

theorem step_scan {s : State} (h : s.rst = false) (hb : s.status.busy = true) : step s = scanStep s := by
  simp [step, h, hb]

theorem step_idle {s : State} (h : s.rst = false) (hb : s.status.busy = false) (hp : s.pending = []) :
    step s = .next s := by
  simp [step, presented, h, hb, hp]

theorem step_command {s : State} {c : Command} {cs : List Command} (h : s.rst = false) (hb : s.status.busy = false)
    (hp : s.pending = c :: cs) : step s = commandStep c s := by
  simp [step, presented, h, hb, hp]

theorem commandStep_legal {c : Command} {i : Instr} {s : State} (h : decode c = .command i) :
    commandStep c s = exec i (acceptCommand s) := by
  simp [commandStep, h]

theorem commandStep_illegal {c : Command} {r : IllegalReason} {s : State} (h : decode c = .illegal r) :
    commandStep c s = .next (raiseIllegal (acceptCommand s)) := by
  simp [commandStep, h]

/-! ### What the commands do (R55) -/

@[simp] theorem exec_nop (s : State) : exec .nop s = .next s := rfl
@[simp] theorem exec_init (cf : Cfg) (s : State) : exec (.init cf) s = .next (beginComputation cf s) := rfl
@[simp] theorem exec_mixb (opa : Word) (s : State) : exec (.mixb opa) s =
    .next { s with acc := zext64 (mix s.cfg.w (accAt s.cfg.w s.acc) (byteOperand opa)) } := rfl
@[simp] theorem exec_unit (opa : Word) (s : State) : exec (.unit opa) s =
    .next { s with acc := feedAcc s.cfg s.acc (unitOperand s.cfg.cu opa) } := rfl
@[simp] theorem exec_scann (a n : Word) (s : State) : exec (.scann a n) s = .next (startScan .sized a n s) := rfl
@[simp] theorem exec_scanz (a : Word) (s : State) : exec (.scanz a) s = .next (startScan .terminated a 0 s) := rfl
@[simp] theorem exec_hashn (cf : Cfg) (a n : Word) (s : State) : exec (.hashn cf a n) s =
    .next (startScan .sized a n (beginComputation cf s)) := rfl
@[simp] theorem exec_hashz (cf : Cfg) (a : Word) (s : State) : exec (.hashz cf a) s =
    .next (startScan .terminated a 0 (beginComputation cf s)) := rfl

/-- Everything a command can do to the registers: nothing, start a computation, change ACC alone, or start a scan,
after starting a computation or not. -/
theorem exec_cases {i : Instr} {s t : State} (h : exec i s = .next t) :
    t = s ∨ (∃ cf, i = .init cf ∧ t = beginComputation cf s) ∨
      (∃ b, i = .mixb b ∧ t = { s with acc := zext64 (mix s.cfg.w (accAt s.cfg.w s.acc) (byteOperand b)) }) ∨
      (∃ b, i = .unit b ∧ t = { s with acc := feedAcc s.cfg s.acc (unitOperand s.cfg.cu b) }) ∨
      (∃ a n, i = .scann a n ∧ t = startScan .sized a n s) ∨
      (∃ a, i = .scanz a ∧ t = startScan .terminated a 0 s) ∨
      (∃ cf a n, i = .hashn cf a n ∧ t = startScan .sized a n (beginComputation cf s)) ∨
      (∃ cf a, i = .hashz cf a ∧ t = startScan .terminated a 0 (beginComputation cf s)) := by
  cases i <;> simp only [exec_nop, exec_init, exec_mixb, exec_unit, exec_scann, exec_scanz, exec_hashn, exec_hashz,
    Host.Outcome.next.injEq] at h <;> subst h <;> simp

/-! ### The scan step (R93, R95, R99) -/

/-- Everything a sized scan step can do. -/
theorem sizedStep_cases {s t : State} (h : sizedStep s = .next t) :
    (s.rem = 0 ∧ t = endScan s) ∨
      (s.rem ≠ 0 ∧ ∃ u d, unitRead s s.cfg.cu s.ptr = some (u, d) ∧
        t = { mixRead s u with rem := s.rem - 1, draws := d }) := by
  unfold sizedStep at h
  split at h
  · next hz => cases h; exact .inl ⟨hz, rfl⟩
  · next hz =>
    split at h
    · cases h
    · next u d hr => cases h; exact .inr ⟨hz, u, d, hr, rfl⟩

/-- Everything a terminated scan step can do. -/
theorem terminatedStep_cases {s t : State} (h : terminatedStep s = .next t) :
    ∃ u d, unitRead s s.cfg.cu s.ptr = some (u, d) ∧
      ((u = 0 ∧ t = { endScan s with draws := d }) ∨ (u ≠ 0 ∧ t = { mixRead s u with draws := d })) := by
  unfold terminatedStep at h
  split at h
  · cases h
  · next u d hr =>
    split at h
    · next hz => cases h; exact ⟨u, d, hr, .inl ⟨hz, rfl⟩⟩
    · next hz => cases h; exact ⟨u, d, hr, .inr ⟨hz, rfl⟩⟩

/-- Everything a scan step can do: end the scan, or mix the unit read and go on. -/
theorem scanStep_cases {s t : State} (h : scanStep s = .next t) :
    (∃ d, t = { endScan s with draws := d }) ∨
      (∃ u d, unitRead s s.cfg.cu s.ptr = some (u, d) ∧
        ((s.status.mode = .sized ∧ s.rem ≠ 0 ∧ t = { mixRead s u with rem := s.rem - 1, draws := d }) ∨
          (s.status.mode = .terminated ∧ u ≠ 0 ∧ t = { mixRead s u with draws := d }))) := by
  unfold scanStep at h
  split at h
  · next hm =>
    obtain ⟨-, rfl⟩ | ⟨hz, u, d, hr, rfl⟩ := sizedStep_cases h
    · exact .inl ⟨s.draws, rfl⟩
    · exact .inr ⟨u, d, hr, .inl ⟨hm, hz, rfl⟩⟩
  · next hm =>
    obtain ⟨u, d, hr, ⟨-, rfl⟩ | ⟨hz, rfl⟩⟩ := terminatedStep_cases h
    · exact .inl ⟨d, rfl⟩
    · exact .inr ⟨u, d, hr, .inr ⟨hm, hz, rfl⟩⟩

/-! ### The whole step -/

/-- Everything a step can do (R13): reset, a scan step, an idle step, an illegal command, a legal command. -/
theorem step_cases {s t : State} (h : step s = .next t) :
    (s.rst = true ∧ t = resetStep s) ∨
      (s.rst = false ∧ s.status.busy = true ∧ scanStep s = .next t) ∨
      (s.rst = false ∧ s.status.busy = false ∧ s.pending = [] ∧ t = s) ∨
      (∃ c cs r, s.rst = false ∧ s.status.busy = false ∧ s.pending = c :: cs ∧ decode c = .illegal r ∧
        t = raiseIllegal (acceptCommand s)) ∨
      (∃ c cs i, s.rst = false ∧ s.status.busy = false ∧ s.pending = c :: cs ∧ decode c = .command i ∧
        exec i (acceptCommand s) = .next t) := by
  cases hr : s.rst with
  | true => rw [step_reset hr] at h; cases h; exact .inl ⟨rfl, rfl⟩
  | false =>
    refine .inr ?_
    cases hb : s.status.busy with
    | true => rw [step_scan hr hb] at h; exact .inl ⟨rfl, rfl, h⟩
    | false =>
      refine .inr ?_
      cases hp : s.pending with
      | nil => rw [step_idle hr hb hp] at h; cases h; exact .inl ⟨rfl, rfl, rfl, rfl⟩
      | cons c cs =>
        refine .inr ?_
        rw [step_command hr hb hp] at h
        cases hd : decode c with
        | illegal r =>
          rw [commandStep_illegal hd] at h
          cases h
          exact .inl ⟨c, cs, r, rfl, rfl, rfl, hd, rfl⟩
        | command i =>
          rw [commandStep_legal hd] at h
          exact .inr ⟨c, cs, i, rfl, rfl, rfl, hd, h⟩

/-! ### The accumulator at its width (R17, R18) -/

@[simp] theorem accAt_zext64 {w : Width} (v : BitVec w.bits) : accAt w (zext64 v) = v := by
  cases w <;> simp [accAt, zext64, Width.bits]

/-- A 32-bit value leaves the upper half of ACC 0. -/
theorem zext64_high (v : BitVec Width.w32.bits) : (zext64 (w := .w32) v).extractLsb' 32 32 = 0 := by
  apply BitVec.eq_of_toNat_eq
  have := v.isLt
  simp only [zext64, Width.bits, BitVec.extractLsb'_toNat, BitVec.toNat_setWidth] at *
  simp only [BitVec.ofNat_eq_ofNat, BitVec.toNat_ofNat, Nat.shiftRight_eq_div_pow]
  omega

end Sys2Proof.Machine
end

