-- ==== Sys2Proof/Laws/Frames.lean ====
section
/-!
SUPPORT. What no command and no scan step changes, the numbers behind the accumulator's zero extension, and the two
ways to cut a list of admitted units.
-/

namespace Sys2Proof.Machine

/-! ### Commands and scan steps -/

/-- Every command completes. -/
theorem exec_next (i : Instr) (s : State) : ∃ t, exec i s = .next t := by
  cases i <;> exact ⟨_, rfl⟩

/-- What no command changes: the port, the view, rst, the draws and ILL. -/
theorem exec_frame {i : Instr} {s t : State} (h : exec i s = .next t) :
    t.pending = s.pending ∧ t.view = s.view ∧ t.rst = s.rst ∧ t.draws = s.draws ∧ t.status.ill = s.status.ill := by
  cases i <;> cases h <;> exact ⟨rfl, rfl, rfl, rfl, rfl⟩

/-- What no scan step changes: the port, the view, rst, CFG, ILL, MODE and the marks. -/
theorem scanStep_frame {s t : State} (h : scanStep s = .next t) :
    t.pending = s.pending ∧ t.view = s.view ∧ t.rst = s.rst ∧ t.cfg = s.cfg ∧ t.status.ill = s.status.ill ∧
      t.status.mode = s.status.mode ∧ t.racing = s.racing := by
  obtain ⟨_, rfl⟩ | ⟨_, _, _, ⟨-, -, rfl⟩ | ⟨-, -, rfl⟩⟩ := scanStep_cases h <;>
    exact ⟨rfl, rfl, rfl, rfl, rfl, rfl, rfl⟩

/-! ### The accumulator as a number (R17) -/

theorem zext64_toNat {w : Width} (v : BitVec w.bits) : (zext64 v).toNat = v.toNat := by
  have hw : w.bits ≤ 64 := by cases w <;> decide
  rw [zext64, BitVec.toNat_setWidth, Nat.mod_eq_of_lt]
  exact Nat.lt_of_lt_of_le v.isLt (Nat.pow_le_pow_right (by decide) hw)

theorem accAt_toNat (w : Width) (acc : Word) : (accAt w acc).toNat = acc.toNat % 2 ^ w.bits := by
  rw [accAt, BitVec.toNat_setWidth]

theorem basis_toNat (w : Width) : (basis w).toNat = natBasis w := by
  cases w <;> decide

theorem prime_toNat (w : Width) : (prime w).toNat = natPrime w := by
  cases w <;> decide

/-! ### Admitted units -/

theorem UnitsAt.head {iv : InputView} {cu : CuWidth} {a : Word} {u : BitVec cu.bits} {us : List (BitVec cu.bits)}
    (h : UnitsAt iv cu a (u :: us)) : viewUnit iv cu a = some u := by
  have := h 0 (by simp)
  simpa using this

theorem UnitsAt.tail {iv : InputView} {cu : CuWidth} {a : Word} {u : BitVec cu.bits} {us : List (BitVec cu.bits)}
    (h : UnitsAt iv cu a (u :: us)) : UnitsAt iv cu (a + 1) us := by
  intro n hn
  have := h (n + 1) (by simpa using hn)
  rw [List.getElem_cons_succ] at this
  rw [← this]
  congr 1
  apply BitVec.eq_of_toNat_eq
  simp [BitVec.toNat_add]
  omega

end Sys2Proof.Machine
end

