-- ==== Sys2Proof/Laws/PerInstr.lean ====
section
/-!
SUPPORT. Facts about each command as syntax, one lemma a constructor. `TableMatch`: the word the encoder writes has
the row's match value under the row's mask (R70).
-/

namespace Sys2Proof.Laws

/-- The row's mask in R70 and opcode_table.json. -/
def tableMask : Instr → CmdWord
  | .nop | .mixb _ | .unit _ | .scann _ _ | .scanz _ => 0xFFFFFFFF
  | .init _ | .hashn _ _ _ | .hashz _ _ => 0xFFFFFE0F

/-- The row's match value in R70 and opcode_table.json. -/
def tableMatch : Instr → CmdWord
  | .nop => 0x00000000
  | .init _ => 0x00000001
  | .mixb _ => 0x00000002
  | .unit _ => 0x00000003
  | .scann _ _ => 0x00000004
  | .scanz _ => 0x00000005
  | .hashn _ _ _ => 0x00000006
  | .hashz _ _ => 0x00000007

/-- A configured word has its row's match value under the mask of the configured rows. -/
theorem cmdWord_masked (cf : BitVec 5) (op : BitVec 4) : cmdWord cf op &&& 0xFFFFFE0F = cmdWord 0 op := by
  revert cf op
  decide

namespace TableMatch

/-- The encoded word of a well-formed command matches its row. -/
def Statement (i : Instr) : Prop := i.wellFormed = true → (encode i).cmd &&& tableMask i = tableMatch i

theorem nop : Statement .nop := fun _ => by decide
theorem init (cf : Cfg) : Statement (.init cf) := fun _ => (cmdWord_masked _ _).trans (show cmdWord 0 1 = 1 by decide)
theorem mixb (opa : Word) : Statement (.mixb opa) := fun _ => by
  simp only [encode, tableMask, tableMatch]
  decide
theorem unit (opa : Word) : Statement (.unit opa) := fun _ => by
  simp only [encode, tableMask, tableMatch]
  decide
theorem scann (start len : Word) : Statement (.scann start len) := fun _ => by
  simp only [encode, tableMask, tableMatch]
  decide
theorem scanz (start : Word) : Statement (.scanz start) := fun _ => by
  simp only [encode, tableMask, tableMatch]
  decide
theorem hashn (cf : Cfg) (start len : Word) : Statement (.hashn cf start len) :=
  fun _ => (cmdWord_masked _ _).trans (show cmdWord 0 6 = 6 by decide)
theorem hashz (cf : Cfg) (start : Word) : Statement (.hashz cf start) :=
  fun _ => (cmdWord_masked _ _).trans (show cmdWord 0 7 = 7 by decide)

end TableMatch

end Sys2Proof.Laws
end

