-- ==== Sys2Proof/Tests/Slice0.lean ====
section
/-!
SUPPORT. The model's own tests. Every expected value is the spec's: the tables of 95_test_vectors.md, the examples of
30_encoding R68, or a field written out from R54.
-/

namespace Sys2Proof.Tests

open Sys2Proof.Machine

/-! ### Helpers -/

/-- A configuration. -/
def cf (w : Width) (cu : CuWidth) (xf : Xform) : Cfg := { w := w, cu := cu, xf := xf }

/-- An idle state with a given configuration, accumulator and commands presented; one unit view of the tests. -/
def idle (c : Cfg) (acc : Word) (pending : List Command) : State :=
  { acc := acc, cfg := c, status := { busy := false, ill := false, mode := .sized }, ptr := 0, rem := 0, rst := false
    pending := pending
    view := { cu8 := [(0, 0x62), (0x100, 0x61), (0x101, 0x62), (0x102, 0x63), (0x103, 0), (2 ^ 64 - 1, 0x61)]
              cu16 := [(0x200, 0x0061), (0x201, 0x1234), (0x202, 0)], cu32 := [(0x300, 0x12345678)] }
    racing := [], draws := 0 }

/-- A state in the middle of a scan. -/
def scanning (c : Cfg) (acc : Word) (mode : ScanMode) (ptr rem : Word) : State :=
  { idle c acc [] with status := { busy := true, ill := false, mode := mode }, ptr := ptr, rem := rem }

/-- The state after 32-bit cu8 basis: `INIT w32, cu8`. -/
def idle32 : State := idle (cf .w32 .cu8 .identity) 0x811C9DC5 []

/-- Whether an outcome is a next state with a property. -/
def nextIs (o : Host.Outcome State Fault Refusal) (p : State → Bool) : Bool :=
  match o with
  | .next t => p t
  | .fault _ => false
  | .refused _ => false

/-- Whether an outcome is the stuck fault. -/
def isStuck (o : Host.Outcome State Fault Refusal) : Bool :=
  match o with
  | .fault .stuckUnadmittedRead => true
  | .next _ => false
  | .refused _ => false

/-! ### Well-formedness: each check refuses an ill-formed term -/

theorem test_wf_refuses_user_init : (Instr.init (cf .w32 .cu32 .user)).wellFormedWith false = false := by decide
theorem test_wf_refuses_user_hashn : (Instr.hashn (cf .w32 .cu32 .user) 0 0).wellFormedWith false = false := by decide
theorem test_wf_refuses_user_hashz : (Instr.hashz (cf .w64 .cu8 .user) 0).wellFormedWith false = false := by decide
theorem test_wf_takes_user_with_slot : (Instr.init (cf .w32 .cu32 .user)).wellFormedWith true = true := by decide

/-! ### Decoding: words of R68 and 95_test_vectors §2.7 -/

/-- The transaction of a word with zero operands. -/
def word (w : CmdWord) : Command := { cmd := w, opa := 0, opb := 0 }

theorem test_decode_nop : decodeWith false (word 0x00000000) = .command .nop := by decide
theorem test_decode_init : decodeWith false (word 0x00000001) = .command (.init (cf .w32 .cu8 .identity)) := by decide
theorem test_decode_init_lower :
    decodeWith false (word 0x000000B1) = .command (.init (cf .w64 .cu16 .asciiToLower)) := by decide
theorem test_decode_init_upper :
    decodeWith true (word 0x00000151) = .command (.init (cf .w64 .cu32 .asciiToUpper)) := by decide
theorem test_decode_mixb :
    decodeWith false { cmd := 0x00000002, opa := 0x161, opb := 7 } = .command (.mixb 0x161) := by decide
theorem test_decode_unit :
    decodeWith true { cmd := 0x00000003, opa := 0xAB12345678, opb := 7 } = .command (.unit 0xAB12345678) := by decide
theorem test_decode_scann :
    decodeWith false { cmd := 0x00000004, opa := 0x100, opb := 3 } = .command (.scann 0x100 3) := by decide
theorem test_decode_scanz :
    decodeWith false { cmd := 0x00000005, opa := 0x100, opb := 3 } = .command (.scanz 0x100) := by decide
theorem test_decode_hashn :
    decodeWith false { cmd := 0x00000096, opa := 0x100, opb := 3 }
      = .command (.hashn (cf .w64 .cu8 .asciiToLower) 0x100 3) := by decide
theorem test_decode_hashz :
    decodeWith false { cmd := 0x00000127, opa := 0x200, opb := 0xFFFF }
      = .command (.hashz (cf .w32 .cu16 .asciiToUpper) 0x200) := by decide
/-- The word of R54 written out bit by bit: RSV, XF = 10, CUW = 10, W = 1, OP = 0111. -/
theorem test_decode_bits :
    decodeWith false (word (0b00000000000000000000000#23 ++ 0b10#2 ++ 0b10#2 ++ 0b1#1 ++ 0b0111#4))
      = .command (.hashz (cf .w64 .cu32 .asciiToUpper) 0) := by decide
theorem test_decode_user_without_slot : decodeWith false (word 0x000001C1) = .illegal .userTransform := by decide
theorem test_decode_user_with_slot :
    decodeWith true (word 0x000001C1) = .command (.init (cf .w32 .cu32 .user)) := by decide
theorem test_decode_cuw3 : decodeWith true (word 0x00000071) = .illegal .unitWidth := by decide
theorem test_decode_cuw3_hashz : decodeWith true (word 0x000001F7) = .illegal .unitWidth := by decide
theorem test_decode_reserved_op : decodeWith true (word 0x00000008) = .illegal .reservedOp := by decide
theorem test_decode_reserved_op15 : decodeWith true (word 0x0000000F) = .illegal .reservedOp := by decide
theorem test_decode_cf_on_nop : decodeWith true (word 0x00000010) = .illegal .configOnPlainOp := by decide
theorem test_decode_cf_on_unit : decodeWith true (word 0x00000073) = .illegal .configOnPlainOp := by decide
theorem test_decode_rsv : decodeWith true (word 0x00000200) = .illegal .reservedBits := by decide
theorem test_decode_rsv_top : decodeWith true (word 0x80000001) = .illegal .reservedBits := by decide
theorem test_encode_hashz :
    encode (.hashz (cf .w32 .cu16 .asciiToUpper) 0x200) = { cmd := 0x127, opa := 0x200, opb := 0 } := by decide
/-- Operand words above the command word: opa = 0x100, opb = 3. -/
theorem test_table_word_operands :
    commandOfBits 160 (0x4 + 0x100 * 2 ^ 32 + 3 * 2 ^ 96) = { cmd := 4, opa := 0x100, opb := 3 } := by decide
theorem test_table_word_masks : commandOfBits 32 (0x4 + 0x100 * 2 ^ 32) = { cmd := 4, opa := 0, opb := 0 } := by decide

/-! ### Reset (95 §2.4) -/

theorem test_reset32 : (State.resetWith .w32).acc = 0x00000000811C9DC5 ∧ cfgOut (State.resetWith .w32) = 0b00000
    ∧ statusOut (State.resetWith .w32) = 0 := by decide
theorem test_reset64 : (State.resetWith .w64).acc = 0xCBF29CE484222325 ∧ cfgOut (State.resetWith .w64) = 0b00001
    ∧ statusOut (State.resetWith .w64) = 0 := by decide

/-! ### The Byte Mixer (95 §2.1) -/

theorem test_mix32_a : mix .w32 0x811C9DC5#32 0x61 = 0xE40C292C#32 := by decide

theorem test_mix64_ones : mix .w64 0xFFFFFFFFFFFFFFFF#64 0x00 = 0xFFFFFEFFFFFFFE4D#64 := by decide
/-- opa = 0x161 mixes the byte 0x61 (R61). -/
theorem test_mixb_truncates : nextIs (exec (.mixb 0x161) idle32) (·.acc == 0xE40C292C) = true := by decide
theorem test_mixb_64 :
    nextIs (exec (.mixb 0x00) (idle (cf .w64 .cu32 .asciiToLower) 0xCBF29CE484222325 []))
      (·.acc == 0xAF63BD4C8601B7DF) = true := by decide

/-! ### Transforms, decomposition and UNIT (95 §2.2, §2.3) -/

theorem test_lower_bounds : (asciiToLower 0x40#8, asciiToLower 0x41#8, asciiToLower 0x5A#8, asciiToLower 0x5B#8)
    = (0x40#8, 0x61#8, 0x7A#8, 0x5B#8) := by decide
theorem test_upper_bounds : (asciiToUpper 0x60#8, asciiToUpper 0x61#8, asciiToUpper 0x7A#8, asciiToUpper 0x7B#8)
    = (0x60#8, 0x41#8, 0x5A#8, 0x7B#8) := by decide
theorem test_lower_whole_unit : asciiToLower 0x1241#16 = 0x1241#16 := by decide
theorem test_bytes16 : unitBytes .cu16 0x1234#16 = [0x34, 0x12] := by decide
theorem test_unit_cu16 :
    nextIs (exec (.unit 0x1234) (idle (cf .w32 .cu16 .identity) 0x811C9DC5 [])) (·.acc == 0xA7E3B7E3) = true := by
  decide
theorem test_unit_cu32_upper :
    nextIs (exec (.unit 0x0000007B) (idle (cf .w64 .cu32 .asciiToUpper) 0xCBF29CE484222325 []))
      (·.acc == 0xEBF5C45ACFC5103E) = true := by decide
theorem test_hash64_lower :
    hashUnits .w64 .cu8 .asciiToLower [0x41#8, 0x42#8, 0x43#8] = 0xE71FA2190541574B#64 := by decide

/-! ### NOP, INIT, and the scan-starting commands (95 §2.4, §2.6, §3) -/

theorem test_nop : nextIs (exec .nop idle32) (· == idle32) = true := by decide
theorem test_init_lower :
    nextIs (exec (.init (cf .w64 .cu16 .asciiToLower)) idle32)
      (fun t => cfgOut t == 0b01011 && t.acc == 0xCBF29CE484222325) = true := by decide
theorem test_init_clears_high_half :
    nextIs (exec (.init (cf .w32 .cu8 .identity)) (idle (cf .w64 .cu8 .identity) 0xAF63DC4C8601EC8C []))
      (·.acc == 0x00000000811C9DC5) = true := by decide
theorem test_scann :
    nextIs (exec (.scann 0x100 3) idle32)
      (fun t => t.ptr == 0x100 && t.rem == 3 && statusOut t == 0b001 && t.acc == 0x811C9DC5) = true := by decide
theorem test_scanz :
    nextIs (exec (.scanz 0x100) { idle32 with rem := 9 })
      (fun t => t.ptr == 0x100 && t.rem == 0 && statusOut t == 0b101) = true := by decide
/-- P2, command 1. -/
theorem test_hashn :
    nextIs (exec (.hashn (cf .w64 .cu8 .asciiToLower) 0x1000 3) idle32)
      (fun t => t.acc == 0xCBF29CE484222325 && cfgOut t == 0b01001 && t.ptr == 0x1000 && t.rem == 3
        && statusOut t == 0b001) = true := by decide
/-- P3, command 1. -/
theorem test_hashz :
    nextIs (exec (.hashz (cf .w32 .cu16 .asciiToUpper) 0x200) idle32)
      (fun t => t.acc == 0x811C9DC5 && cfgOut t == 0b10010 && t.ptr == 0x200 && t.rem == 0
        && statusOut t == 0b101) = true := by decide

/-! ### Scan steps (95 §2.6, §3) -/

/-- S3 and S4, first step. -/
theorem test_sized_step :
    nextIs (step (scanning (cf .w32 .cu8 .identity) 0x811C9DC5 .sized 0x100 3))
      (fun t => t.acc == 0xE40C292C && t.ptr == 0x101 && t.rem == 2 && t.status.busy) = true := by decide
/-- S9, first step: the address wraps. -/
theorem test_sized_step_wraps :
    nextIs (step (scanning (cf .w32 .cu8 .identity) 0x811C9DC5 .sized 0xFFFFFFFFFFFFFFFF 2))
      (fun t => t.ptr == 0 && t.acc == 0xE40C292C) = true := by decide
/-- S2: a sized scan of length 0 ends without a read, even at an unadmitted address. -/
theorem test_sized_step_end :
    nextIs (step (scanning (cf .w64 .cu8 .identity) 0xCBF29CE484222325 .sized 0xDEAD 0))
      (fun t => !t.status.busy && t.ptr == 0xDEAD && t.acc == 0xCBF29CE484222325) = true := by decide
/-- S10, first step. -/
theorem test_terminated_step :
    nextIs (step (scanning (cf .w32 .cu16 .asciiToUpper) 0x811C9DC5 .terminated 0x200 0))
      (fun t => t.acc == 0x6AD58324 && t.ptr == 0x201 && t.status.busy) = true := by decide
/-- P3, step 1.3: the sentinel is not mixed and PTR stays at it. -/
theorem test_terminated_sentinel :
    nextIs (step (scanning (cf .w32 .cu16 .asciiToUpper) 0xEA284B86 .terminated 0x202 0))
      (fun t => t.acc == 0xEA284B86 && t.ptr == 0x202 && !t.status.busy && t.status.mode == .terminated) = true := by
  decide
/-- S15 and S16: the next read is unadmitted. -/
theorem test_stuck : isStuck (step (scanning (cf .w32 .cu8 .identity) 0x4D2505CA .terminated 0x104 0)) = true := by
  decide

/-! ### The step: port, fault, reset -/

/-- F1: an illegal word sets ILL, is consumed, and changes nothing else. -/
theorem test_illegal_sets_ill :
    nextIs (step (idle (cf .w64 .cu16 .asciiToLower) 0x089BE207B544F1E4 [word 0x00000008]))
      (fun t => t.status.ill && t.acc == 0x089BE207B544F1E4 && cfgOut t == 0b01011 && t.pending == []) = true := by
  decide
/-- While BUSY = 1 a presented command is held. -/
theorem test_busy_holds :
    nextIs (step { scanning (cf .w32 .cu8 .identity) 0x811C9DC5 .sized 0x100 1 with pending := [word 0x00000001] })
      (fun t => t.pending == [word 0x00000001] && t.acc == 0xE40C292C) = true := by decide
theorem test_accept_unit :
    nextIs (step (idle (cf .w32 .cu8 .identity) 0x811C9DC5 [{ cmd := 3, opa := 0x61, opb := 0 }, word 0]))
      (fun t => t.acc == 0xE40C292C && t.pending == [word 0]) = true := by decide
/-- Reset wins over a command and a scan, and the held command is not accepted (S18). -/
theorem test_reset_first :
    nextIs (step { scanning (cf .w32 .cu8 .identity) 0x1 .terminated 0x104 0 with rst := true, pending := [word 1] })
      (fun t => statusOut t == 0 && t.ptr == 0 && t.pending == [word 1]) = true := by decide

/-- The first instruction after reset, through the fetch word: NOP leaves the registers as they are. -/
theorem test_fetch_word_nop :
    nextIs (step (State.reset.withFetchWord 32 0)) (fun t => t.pending == [] && !t.status.ill) = true := by decide
theorem test_fetch_word_hashn :
    nextIs (step (State.reset.withFetchWord 32 6)) (fun t => t.status.busy && t.acc == 0x811C9DC5) = true := by decide
theorem test_fetch_word_scanz : decodeTableWord 32 5 = some (.scanz 0) := by decide

/-- A view supplied during a scan leaves a stuck scan stuck (R111). -/
theorem test_supplied_view_keeps_stuck :
    isStuck (step (supplyView { cu8 := [(0x104, 0)], cu16 := [], cu32 := [] }
      (scanning (cf .w32 .cu8 .identity) 0x4D2505CA .terminated 0x104 0))) = true := by decide
/-- A UNIT waiting belongs to the computation, a HASHN begins another (R14, R137). -/
theorem test_own_commands : ownCommands [word 3, word 0, word 8, word 6, word 3] = [word 3, word 0, word 8] := by decide

/-! ### The assembler (R68, R69) -/

theorem test_asm_init :
    assembleText ['I', 'N', 'I', 'T', ' ', 'w', '6', '4', ',', ' ', 'c', 'u', '1', '6', ',', 'l', 'o', 'w', 'e', 'r',
        ';', 'x']
      = some [word 0x000000B1] := by decide
theorem test_asm_hashn :
    assembleText ['h', 'a', 's', 'h', 'n', ' ', 'w', '6', '4', ',', 'c', 'u', '8', ',', '0', 'x', '1', '0', '0', ',',
        '3']
      = some [{ cmd := 0x16, opa := 0x100, opb := 3 }] := by decide
theorem test_asm_unitstr :
    assembleText ['U', 'N', 'I', 'T', 'S', 'T', 'R', ' ', '"', 'a', 'b', '"']
      = some [{ cmd := 3, opa := 0x61, opb := 0 }, { cmd := 3, opa := 0x62, opb := 0 }] := by decide
theorem test_asm_char :
    assembleText ['U', 'N', 'I', 'T', ' ', '\'', 'a', '\''] = some [{ cmd := 3, opa := 0x61, opb := 0 }] := by decide
/-- The assembler refuses a byte above 255 rather than truncating it. -/
theorem test_asm_refuses_byte : assembleLine (.mixb 0x161) = none := by decide
theorem test_asm_hashv_empty : assembleLine (.hashv (cf .w32 .cu8 .identity) []) = some [word 1] := by decide
theorem test_asm_units_empty : assembleLine (.units []) = none := by decide

/-! ### Witnesses: for each statement with hypotheses, inputs that meet them together, clause by clause -/

/-- A state in the middle of a scan of the test view's 8-bit units, with a command waiting. -/
def busy8 (mode : ScanMode) (ptr rem : Word) : State :=
  { scanning (cf .w32 .cu8 .identity) 0x811C9DC5 mode ptr rem with pending := [word 1] }

/-- An idle state with a command on the port. -/
def offered (w : CmdWord) : State := idle (cf .w32 .cu8 .identity) 0x811C9DC5 [word w, word 0]

theorem witness_DecodeOfEncode :
    (Instr.hashz (cf .w64 .cu32 .asciiToUpper) 0xFFFFFFFFFFFFFFFF).wellFormed = true := by decide
theorem witness_EncodeOfDecode :
    decode { cmd := 0x127, opa := 0x200, opb := 9 } = .command (.hashz (cf .w32 .cu16 .asciiToUpper) 0x200) := by decide
/-- A reserved operation is not legal, whatever HAS_XF_USER is. -/
theorem witness_LegalWordsDecodeAndIllegalWordsFault :
    (offered 8).rst = false ∧ (offered 8).status.busy = false ∧ (offered 8).pending = word 8 :: [word 0] ∧
      ¬ Legal Config.hasXfUser (word 8).cmd.toNat := by
  refine ⟨rfl, rfl, rfl, ?_⟩
  simp [Legal, natField, word]
/-- Illegal words: RSV, OP, CUW, CF of a plain operation, and XF without the user slot. -/
theorem witness_DecodeSelectsByOp_illegal :
    ¬ Legal true 0x200 ∧ ¬ Legal true 8 ∧ ¬ Legal true 0x61 ∧ ¬ Legal true 0x10 ∧ ¬ Legal false 0x181 := by
  simp [Legal, natField]
/-- A legal word of each operation. -/
theorem witness_DecodeSelectsByOp_legal :
    (∀ w ∈ [0, 1, 2, 3, 4, 5, 6, 7, 0x151, 0x96, 0x127], Legal false w) ∧ Legal true 0x1C1 ∧
      (List.range 8).map (fun w => natField w 0 4) = [0, 1, 2, 3, 4, 5, 6, 7] := by
  simp [Legal, natField, List.range, List.range.loop]
theorem witness_TableRowsMatchDecode : ∀ i, decodeWith true (word 8) ≠ .command i := by
  intro i h
  rw [show decodeWith true (word 8) = .illegal .reservedOp from by decide] at h
  cases h
theorem witness_ResetStepWritesEveryRegister :
    ({ busy8 .terminated 0x104 0 with rst := true } : State).rst = true := rfl
theorem witness_ResetIsInitOfNativeWidth : ({ offered 8 with rst := true } : State).rst = true := rfl
theorem witness_StepRunsDecodedCommand :
    (offered 0x96).rst = false ∧ (offered 0x96).status.busy = false ∧ (offered 0x96).pending = word 0x96 :: [word 0] ∧
      decode (word 0x96) = .command (.hashn (cf .w64 .cu8 .asciiToLower) 0 0) := by decide
theorem witness_FetchWordIsRunNext :
    decodeTableWord 160 (0x96 + 0x100 * 2 ^ 32 + 3 * 2 ^ 96)
      = some (.hashn (cf .w64 .cu8 .asciiToLower) 0x100 3) := by decide
theorem witness_IdleStepChangesNothing :
    idle32.rst = false ∧ idle32.status.busy = false ∧ idle32.pending = [] := by decide
/-- A step in each case: accepting, busy, and reset. -/
theorem witness_PortHoldsOrAccepts :
    nextIs (step (offered 0x96)) (fun _ => true) = true ∧ nextIs (step (busy8 .sized 0x100 3)) (fun _ => true) = true ∧
      nextIs (step { busy8 .terminated 0x104 0 with rst := true }) (fun _ => true) = true := by decide
theorem witness_StuckIsTheOnlyStop : Stuck (busy8 .terminated 0x104 0) ∧ Stuck (busy8 .sized 0x104 1) :=
  ⟨⟨rfl, .inl rfl, by decide⟩, ⟨rfl, .inr (by decide), by decide⟩⟩
theorem witness_OneUnitChangesTheHash :
    (CuWidth.cu8 ≠ .cu32 ∧ transform .asciiToLower .cu8 0x41#8 ≠ transform .asciiToLower .cu8 0x62#8) ∧
      (CuWidth.cu16 ≠ .cu32 ∧ transform .identity .cu16 0x1234#16 ≠ transform .identity .cu16 0x1334#16) := by decide
theorem witness_NopChangesNothing_port :
    (offered 0).rst = false ∧ (offered 0).status.busy = false ∧
      (offered 0).pending = { cmd := 0, opa := 0, opb := 0 } :: [word 0] := by decide
theorem witness_NopChangesNothing_illegal :
    natField (word 0x10).cmd.toNat 0 4 = 0 ∧ (word 0x10).cmd ≠ 0 ∧ natField (word 0x80000000).cmd.toNat 0 4 = 0 ∧
      (word 0x80000000).cmd ≠ 0 := by decide
theorem witness_OtherOperandBitsIgnored :
    (0x161 : Word).toNat % 2 ^ 8 = (0x61 : Word).toNat % 2 ^ 8 ∧
      (0xAB1234 : Word).toNat % 2 ^ (idle (cf .w32 .cu16 .identity) 0 []).cfg.cu.bits
        = (0x1234 : Word).toNat % 2 ^ (idle (cf .w32 .cu16 .identity) 0 []).cfg.cu.bits ∧
      (natField (word 7).cmd.toNat 0 4 ≠ 4 ∧ natField (word 7).cmd.toNat 0 4 ≠ 6) ∧
      natField (word 0x151).cmd.toNat 0 4 ≤ 1 := by decide
/-- Two states with the same ACC and CFG that differ elsewhere, and a command that completes in both. -/
theorem witness_AccDependsOnAccCfgAndCommand :
    idle32.acc = (busy8 .sized 5 6).acc ∧ idle32.cfg = (busy8 .sized 5 6).cfg ∧ idle32 ≠ busy8 .sized 5 6 ∧
      nextIs (exec (.unit 7) idle32) (fun _ => true) = true ∧
      nextIs (exec (.unit 7) (busy8 .sized 5 6)) (fun _ => true) = true := by decide
/-- The end of a sized scan. -/
theorem witness_SizedScanStep_end :
    (busy8 .sized 0x104 0).rst = false ∧ (busy8 .sized 0x104 0).status.busy = true ∧
      (busy8 .sized 0x104 0).status.mode = .sized ∧ (busy8 .sized 0x104 0).rem = 0 := by decide
/-- A read at the highest unit address. -/
theorem witness_SizedScanStep_feed :
    (busy8 .sized 0xFFFFFFFFFFFFFFFF 2).status.busy = true ∧ (busy8 .sized 0xFFFFFFFFFFFFFFFF 2).rem ≠ 0 ∧
      viewUnit (busy8 .sized 0xFFFFFFFFFFFFFFFF 2).view .cu8 0xFFFFFFFFFFFFFFFF = some 0x61#8 ∧
      (0xFFFFFFFFFFFFFFFF : Word).toNat ∉ (busy8 .sized 0xFFFFFFFFFFFFFFFF 2).racing := by decide
/-- The sentinel and a unit before it. -/
theorem witness_TerminatedScanStep :
    (busy8 .terminated 0x103 0).rst = false ∧ (busy8 .terminated 0x103 0).status.busy = true ∧
      (busy8 .terminated 0x103 0).status.mode = .terminated ∧ (busy8 .terminated 0x103 0).racing = [] ∧
      viewUnit (busy8 .terminated 0x103 0).view .cu8 0x103 = some 0#8 ∧
      viewUnit (busy8 .terminated 0x102 0).view .cu8 0x102 = some 0x63#8 := by decide
theorem witness_RacedReadIsADraw_sized :
    ({ busy8 .sized 0x100 3 with racing := [0x100] } : State).rst = false ∧
      NeedsRead { busy8 .sized 0x100 3 with racing := [0x100] } ∧
      viewUnit (busy8 .sized 0x100 3).view .cu8 0x100 = some 0x61#8 ∧ (0x100 : Word).toNat ∈ [0x100] :=
  ⟨rfl, .inr (by decide), by decide, by decide⟩
theorem witness_RacedReadIsADraw_terminated :
    ({ busy8 .terminated 0x100 0 with racing := [0x100] } : State).rst = false ∧
      NeedsRead { busy8 .terminated 0x100 0 with racing := [0x100] } ∧
      viewUnit (busy8 .terminated 0x100 0).view .cu8 0x100 = some 0x61#8 :=
  ⟨rfl, .inl rfl, by decide⟩
/-- Admitted units, one that the scan may still read and one it may not. -/
theorem witness_AgentWriteMarksTheRacedUnit :
    admits (busy8 .sized 0x100 2).view .cu8 0x101 = true ∧ mayStillRead (busy8 .sized 0x100 2) .cu8 0x101 = true ∧
      admits (busy8 .sized 0x100 2).view .cu8 0x102 = true ∧ mayStillRead (busy8 .sized 0x100 2) .cu8 0x102 = false ∧
      admits (busy8 .sized 0x100 2).view .cu16 0x200 = true ∧
      mayStillRead (busy8 .sized 0x100 2) .cu16 0x200 = false := by
  decide
theorem witness_NoReadOutsideAScan :
    ({ busy8 .sized 0x100 3 with rst := true } : State).rst = true ∧ (offered 0x96).status.busy = false := by decide
/-- Two views that agree at PTR and differ after it. -/
theorem witness_ScanStepReadsOnlyTheUnitAtPtr :
    (busy8 .sized 0x100 3).status.busy = true ∧
      viewUnit { cu8 := [(0x100, 0x61), (0x101, 0x7A)], cu16 := [], cu32 := [] } .cu8 (busy8 .sized 0x100 3).ptr
        = viewUnit (busy8 .sized 0x100 3).view .cu8 (busy8 .sized 0x100 3).ptr := by decide
theorem witness_NoStepWritesTheView :
    nextIs (step (busy8 .sized 0x100 3)) (fun _ => true) = true ∧
      nextIs (exec (.hashn (cf .w64 .cu8 .asciiToLower) 0x100 3) idle32) (fun _ => true) = true := by decide

/-- "abc" at 0x100 of the test view, the sentinel behind it, and no units at all. -/
theorem witness_HashnEndsWithTheHash :
    idle32.rst = false ∧ UnitsAt idle32.view .cu8 0x100 [0x61#8, 0x62#8, 0x63#8] ∧ UnitsAt idle32.view .cu8 0xDEAD [] ∧
      UnitsAt idle32.view .cu8 0xFFFFFFFFFFFFFFFF [0x61#8, 0x62#8] := by
  unfold UnitsAt
  decide
theorem witness_HashzEndsWithTheHash :
    idle32.rst = false ∧ UnitsAt idle32.view .cu8 0x100 ([0x61#8, 0x62#8, 0x63#8] ++ [0]) ∧
      (∀ u ∈ [0x61#8, 0x62#8, 0x63#8], u ≠ 0) ∧ UnitsAt idle32.view .cu8 0x103 ([] ++ [0#8]) := by
  unfold UnitsAt
  decide
/-- The invariant of the idle test state. -/
theorem regInv_idle32 : RegInv idle32 := ⟨fun _ => by decide, fun h => (by cases h), fun h => (by cases h)⟩
theorem witness_ScannContinuesTheFold :
    RegInv idle32 ∧ idle32.rst = false ∧ UnitsAt idle32.view idle32.cfg.cu 0x100 [0x61#8, 0x62#8, 0x63#8] :=
  ⟨regInv_idle32, rfl, witness_HashnEndsWithTheHash.2.1⟩
theorem witness_ScanzContinuesTheFold :
    RegInv idle32 ∧ idle32.rst = false ∧ UnitsAt idle32.view idle32.cfg.cu 0x100 ([0x61#8, 0x62#8, 0x63#8] ++ [0]) ∧
      (∀ u ∈ [0x61#8, 0x62#8, 0x63#8], u ≠ 0) :=
  ⟨regInv_idle32, rfl, witness_HashzEndsWithTheHash.2.1, witness_HashzEndsWithTheHash.2.2.1⟩
theorem witness_TerminatedAndSizedScansAgree :
    idle32.rst = false ∧ UnitsAt idle32.view .cu16 0x200 ([0x0061#16, 0x1234#16] ++ [0]) ∧
      (∀ u ∈ [0x0061#16, 0x1234#16], u ≠ 0) :=
  ⟨rfl, by unfold UnitsAt; decide, by simp⟩
theorem witness_ChainedScansHashTheConcatenation :
    idle32.rst = false ∧ UnitsAt idle32.view .cu8 0x100 [0x61#8, 0x62#8] ∧ UnitsAt idle32.view .cu8 0x102 [0x63#8] ∧
      UnitsAt idle32.view .cu8 0x100 ([0x61#8, 0x62#8] ++ [0x63#8]) := by
  unfold UnitsAt
  decide
theorem witness_TerminatedScanGoesOnWithoutSentinel :
    (busy8 .terminated 0x100 0).rst = false ∧ (busy8 .terminated 0x100 0).status.busy = true ∧
      (busy8 .terminated 0x100 0).status.mode = .terminated ∧ (busy8 .terminated 0x100 0).racing = [] ∧
      UnitsAt (busy8 .terminated 0x100 0).view .cu8 0x100 [0x61#8, 0x62#8, 0x63#8] ∧
      (∀ u ∈ [0x61#8, 0x62#8, 0x63#8], u ≠ 0) := by
  unfold UnitsAt
  decide
theorem witness_PortComputationIsTheByteFold :
    (Instr.init (cf .w32 .cu16 .identity)).wellFormed = true ∧ (∀ i ∈ [Instr.unit 0x1234, .nop, .mixb 0x34],
        feedsOperand i = true) ∧
      (idle (cf .w64 .cu8 .identity) 5 ([word 0x21, { word 3 with opa := 0x1234 }, word 0,
        { word 2 with opa := 0x34 }, word 8])).pending
        = encode (.init (cf .w32 .cu16 .identity)) :: [Instr.unit 0x1234, .nop, .mixb 0x34].map encode ++ [word 8] := by
  decide

/-- The invariant of a test state in which a command waits. -/
theorem witness_StepKeepsTheInvariant :
    MachineInv (offered 0x96) ∧ nextIs (step (offered 0x96)) (fun _ => true) = true :=
  ⟨⟨⟨fun _ => by decide, fun h => (by cases h), fun h => (by cases h)⟩, ⟨by decide, by decide⟩⟩, by decide⟩
theorem witness_StepKeepsTheInvariant_scan :
    MachineInv (busy8 .terminated 0x100 0) ∧ nextIs (step (busy8 .terminated 0x100 0)) (fun _ => true) = true :=
  ⟨⟨⟨fun _ => by decide, fun h => (by cases h), fun _ => rfl⟩, ⟨by decide, by decide⟩⟩, by decide⟩
theorem witness_OutsideActionsKeepTheInvariant : MachineInv idle32 ∧ Memory.wf idle32.view = true :=
  ⟨⟨regInv_idle32, ⟨by decide, by decide⟩⟩, by decide⟩
/-- Each clause of ILL: a reset, a set ILL kept, ILL clear before an illegal word. -/
theorem witness_IllIsStickyUntilReset :
    nextIs (step { offered 8 with rst := true }) (fun _ => true) = true ∧
      (offered 8).rst = false ∧ (offered 8).status.ill = false ∧
      nextIs (step { offered 1 with status := { busy := false, ill := true, mode := .sized } }) (·.status.ill) = true ∧
      nextIs (step (offered 8)) (·.status.ill) = true := by decide
theorem witness_CfgIsWrittenOnlyWithBasis :
    nextIs (step (offered 0x96)) (fun t => decide (t.cfg ≠ (offered 0x96).cfg)) = true := by decide
theorem witness_BusyRisesAndFallsOnlyByScans :
    ((offered 0x96).status.busy = false ∧ nextIs (step (offered 0x96)) (·.status.busy) = true) ∧
      ((busy8 .sized 0 0).status.busy = true ∧ nextIs (step (busy8 .sized 0 0)) (!·.status.busy) = true) ∧
      nextIs (step (busy8 .terminated 0x103 0)) (!·.status.busy) = true := by decide
theorem witness_InstancesShareNoState :
    ({ instances := [idle32, offered 0x96], draws := 7 } : Platform).instances[1]? = some (offered 0x96) ∧
      nextIs (step (withDraws 7 (offered 0x96))) (fun _ => true) = true ∧ (offered 0x96).racing = [] := by decide
/-- A stuck scan, with a command waiting, and a run of it in which the host supplies a view that admits its unit. -/
theorem witness_OnlyResetLeavesTheStuckState :
    Stuck (busy8 .terminated 0x104 0) ∧ (busy8 .terminated 0x104 0).rst = false ∧
      RunsOn (busy8 .terminated 0x104 0)
        (supplyView { cu8 := [(0x104, 0)], cu16 := [], cu32 := [] } (busy8 .terminated 0x104 0)) :=
  ⟨witness_StuckIsTheOnlyStop.1, rfl,
    .move (fun h => absurd h.1 (by decide)) (.inr (.inr (.inl ⟨_, rfl⟩))) (.here _)⟩
theorem witness_AdmissionIsHeldDuringAScan :
    idle32.status.busy = false ∧ (busy8 .sized 0x100 3).status.busy = true ∧
      admits (busy8 .sized 0x100 3).view (busy8 .sized 0x100 3).cfg.cu 0x102 = true := by decide
/-- A HASHN with nothing behind it. -/
theorem witness_HashnComputationReachesItsEnd_alone :
    let s := idle (cf .w64 .cu16 .identity) 5 [{ word 0x26 with opa := 0x200, opb := 2 }]
    s.rst = false ∧ s.status.busy = false ∧ (cf .w32 .cu16 .identity).legalWith Config.hasXfUser = true ∧
      s.pending = [encode (.hashn (cf .w32 .cu16 .identity) 0x200 (BitVec.ofNat 64 [0x0061#16, 0x1234#16].length))] ∧
      ownCommands [] = [] ∧ UnitsAt s.view .cu16 0x200 [0x0061#16, 0x1234#16] := by
  unfold UnitsAt
  decide
/-- A HASHN with another HASHN behind it. -/
theorem witness_HashnComputationReachesItsEnd :
    let s := idle (cf .w32 .cu8 .identity) 5 [{ word 6 with opa := 0x100, opb := 3 }, word 0x96]
    s.rst = false ∧ s.status.busy = false ∧ (cf .w32 .cu8 .identity).legalWith Config.hasXfUser = true ∧
      s.pending = encode (.hashn (cf .w32 .cu8 .identity) 0x100 (BitVec.ofNat 64 [0x61#8, 0x62#8, 0x63#8].length))
        :: [word 0x96] ∧ ownCommands [word 0x96] = [] ∧ UnitsAt s.view .cu8 0x100 [0x61#8, 0x62#8, 0x63#8] := by
  unfold UnitsAt
  decide
theorem witness_PseudoCommandsExpand :
    ([0, 2 ^ 64 - 1] ≠ ([] : List Nat) ∧ ∀ v ∈ [0, 2 ^ 64 - 1], v < 2 ^ 64) ∧
      ([0, 255] ≠ ([] : List Nat) ∧ ∀ b ∈ [0, 255], b < 256) ∧ (∀ c ∈ ['a', 'Z'], c.toNat < 128) ∧
      (∃ b ∈ [1, 256], 256 ≤ b) ∧ (∃ v ∈ [2 ^ 64], 2 ^ 64 ≤ v) := by
  simp

end Sys2Proof.Tests
end

