-- ==== Sys2Proof/Proofs/State.lean ====
section
/-!
The reset values (R36) and STATUS.BUSY (R24): what one command, one scan step and one whole step do to BUSY.
-/

namespace Sys2Proof.Machine

/-! ### The reset values (R36) -/

/-- Settles O7: the configuration and the basis are tables over the two widths, the other registers are constants. -/
theorem resetValues : Obligations.ResetValues := by
  refine ⟨rfl, fun native => ⟨?acc, ?cfg, resetWith_status native, resetWith_ptr native, resetWith_rem native⟩⟩
  case acc => cases native <;> rfl
  case cfg => cases native <;> rfl

/-! ### BUSY and the commands (R24, R94, R97, R100, R101) -/

/-- The four commands that start a scan. -/
def startsScan : Instr → Bool
  | .scann _ _ | .scanz _ | .hashn _ _ _ | .hashz _ _ => true
  | .nop | .init _ | .mixb _ | .unit _ => false

theorem startsScan_iff {i : Instr} : startsScan i = true ↔
    (∃ a n, i = .scann a n) ∨ (∃ a, i = .scanz a) ∨ (∃ cf a n, i = .hashn cf a n) ∨ ∃ cf a, i = .hashz cf a := by
  cases i <;> simp [startsScan]

theorem exec_busy {i : Instr} {s t : State} (h : exec i s = .next t) :
    t.status.busy = (startsScan i || s.status.busy) := by
  cases i <;> cases h <;> rfl

/-! ### BUSY and the scan step (R95, R99) -/

theorem scanStep_sized {s : State} (hm : s.status.mode = .sized) : scanStep s = sizedStep s := by
  simp [scanStep, hm]

theorem scanStep_terminated {s : State} (hm : s.status.mode = .terminated) : scanStep s = terminatedStep s := by
  simp [scanStep, hm]

theorem sizedStep_busy_eq_false_iff {s t : State} (h : sizedStep s = .next t) (hb : s.status.busy = true) :
    t.status.busy = false ↔ s.rem = 0 := by
  obtain ⟨hz, rfl⟩ | ⟨hz, u, d, -, rfl⟩ := sizedStep_cases h
  · simp [hz]
  · simpa [hb] using hz

theorem terminatedStep_busy_eq_false_iff {s t : State} (h : terminatedStep s = .next t) (hb : s.status.busy = true) :
    t.status.busy = false ↔ ∃ d, unitRead s s.cfg.cu s.ptr = some (0, d) := by
  obtain ⟨u, d, hr, ⟨rfl, rfl⟩ | ⟨hz, rfl⟩⟩ := terminatedStep_cases h
  · simp [hr]
  · simpa [hr, hb] using hz

theorem scanStep_busy_eq_false_iff {s t : State} (h : scanStep s = .next t) (hb : s.status.busy = true) :
    t.status.busy = false ↔ (s.status.mode = .sized ∧ s.rem = 0) ∨
      (s.status.mode = .terminated ∧ ∃ d, unitRead s s.cfg.cu s.ptr = some (0, d)) := by
  cases hm : s.status.mode with
  | sized =>
    rw [scanStep_sized hm] at h
    simpa using sizedStep_busy_eq_false_iff h hb
  | terminated =>
    rw [scanStep_terminated hm] at h
    simpa using terminatedStep_busy_eq_false_iff h hb

/-! ### BUSY and the whole step (R24) -/

/-- BUSY rises exactly in the step that accepts a command which starts a scan. -/
theorem step_busy_eq_true_iff {s t : State} (h : step s = .next t) (hb : s.status.busy = false) :
    t.status.busy = true ↔
      s.rst = false ∧ ∃ c cs i, s.pending = c :: cs ∧ decode c = .command i ∧ startsScan i = true := by
  obtain ⟨hr, rfl⟩ | ⟨-, hb', -⟩ | ⟨-, -, hp, rfl⟩ | ⟨c, cs, r, -, -, hp, hd, rfl⟩ | ⟨c, cs, i, hr, -, hp, hd, he⟩ :=
    step_cases h
  case inl => simp [hr]
  case inr.inl => simp [hb] at hb'
  case inr.inr.inl => simp [hb, hp]
  case inr.inr.inr.inl => simp [hb, hp, hd]
  case inr.inr.inr.inr => simp [exec_busy he, hb, hr, hp, hd]

/-- BUSY falls exactly in a reset and in the scan step that ends the scan. -/
theorem step_busy_eq_false_iff {s t : State} (h : step s = .next t) (hb : s.status.busy = true) :
    t.status.busy = false ↔ s.rst = true ∨ (s.status.mode = .sized ∧ s.rem = 0) ∨
      (s.status.mode = .terminated ∧ ∃ d, unitRead s s.cfg.cu s.ptr = some (0, d)) := by
  cases hr : s.rst with
  | true =>
    rw [step_reset hr] at h
    cases h
    simp
  | false =>
    rw [step_scan hr hb] at h
    simpa using scanStep_busy_eq_false_iff h hb

/-- The port accepts nothing while BUSY = 1 (R33). -/
theorem step_pending_of_busy {s t : State} (h : step s = .next t) (hb : s.status.busy = true) :
    t.pending = s.pending := by
  cases hr : s.rst with
  | true =>
    rw [step_reset hr] at h
    cases h
    rfl
  | false =>
    rw [step_scan hr hb] at h
    exact (scanStep_frame h).1

/-- Settles O53: BUSY rises, falls and gates the port as the three lemmas on the whole step say. -/
theorem busyRisesAndFallsOnlyByScans : Obligations.BusyRisesAndFallsOnlyByScans := by
  intro s t h
  refine ⟨fun hb => ?_, step_busy_eq_false_iff h, step_pending_of_busy h⟩
  simpa only [startsScan_iff] using step_busy_eq_true_iff h hb

end Sys2Proof.Machine
end

/-!
The block never writes the input view (R43): the view is kept by every kind of step.
-/

namespace Sys2Proof.Machine

/-- What no step changes: the input view (R43). -/
theorem step_view {s t : State} (h : step s = .next t) : t.view = s.view := by
  obtain ⟨-, rfl⟩ | ⟨-, -, hs⟩ | ⟨-, -, -, rfl⟩ | ⟨_, _, _, -, -, -, -, rfl⟩ | ⟨_, _, _, -, -, -, -, he⟩ := step_cases h
  case inl => exact resetStep_view s
  case inr.inl =>
    obtain ⟨-, hview, -⟩ := scanStep_frame hs
    exact hview
  case inr.inr.inl => rfl
  case inr.inr.inr.inl => rw [raiseIllegal_view, acceptCommand_view]
  case inr.inr.inr.inr =>
    obtain ⟨-, hview, -⟩ := exec_frame he
    rw [hview, acceptCommand_view]

/-- Settles O39: a step and a command keep the view itself, so every unit reads as before. -/
theorem noStepWritesTheView : Obligations.NoStepWritesTheView := by
  refine ⟨fun s t h => ?_, fun i s t h cu a => ?_⟩
  · have hview : t.view = s.view := step_view h
    exact ⟨hview, fun cu a => by rw [hview]⟩
  · obtain ⟨-, hview, -⟩ := exec_frame h
    rw [hview]

end Sys2Proof.Machine

/-!
Decoding (R54, R62, R65, R67): the operation OP selects, what it asks of the CF field, and that a transaction decodes to
a command exactly when its word is legal.
-/

namespace Sys2Proof.Machine

/-! ### The CF field as a configuration (R56 to R58) -/

/-- What R57 and R58 ask of the CF field of an operation that carries a configuration. -/
def CfLegal (hasUser : Bool) (cmd : Nat) : Prop :=
  natField cmd 5 2 ≠ 3 ∧ (natField cmd 7 2 ≠ 3 ∨ hasUser = true)

theorem cfgOfBits_isOk_iff (user : Bool) (b : BitVec 5) :
    (cfgOfBits user b).isOk = true ↔ natField b.toNat 1 2 ≠ 3 ∧ (natField b.toNat 3 2 ≠ 3 ∨ user = true) := by
  revert user b
  decide

theorem cfgOfBits_cfField_isOk_iff (user : Bool) (c : CmdWord) :
    (cfgOfBits user (cfField c)).isOk = true ↔ CfLegal user c.toNat := by
  rw [cfgOfBits_isOk_iff, cfField_toNat, natField_natField _ _ _ _ _ (by decide),
    natField_natField _ _ _ _ _ (by decide), CfLegal]

theorem decodeConfig_of_cfLegal {user : Bool} {c : CmdWord} (h : CfLegal user c.toNat) (mk : Cfg → Instr) :
    ∃ cf, (cfgBits cf).toNat = natField c.toNat 4 5 ∧ decodeConfig user (cfField c) mk = .command (mk cf) := by
  rw [← cfgOfBits_cfField_isOk_iff] at h
  cases hg : cfgOfBits user (cfField c) with
  | error r => simp [hg, Except.isOk, Except.toBool] at h
  | ok cf =>
    obtain ⟨-, hbits⟩ := cfgOfBits_ok hg
    exact ⟨cf, by rw [hbits, cfField_toNat], by simp [decodeConfig, hg]⟩

theorem decodeConfig_of_not_cfLegal {user : Bool} {c : CmdWord} (h : ¬ CfLegal user c.toNat) (mk : Cfg → Instr) :
    ∃ r, decodeConfig user (cfField c) mk = .illegal r := by
  rw [← cfgOfBits_cfField_isOk_iff] at h
  cases hg : cfgOfBits user (cfField c) with
  | error r => exact ⟨r, by simp [decodeConfig, hg]⟩
  | ok cf => simp [hg, Except.isOk, Except.toBool] at h

/-! ### An operation without configuration (R62) -/

theorem cfField_eq_zero_iff (c : CmdWord) : cfField c = 0 ↔ natField c.toNat 4 5 = 0 := by
  rw [← cfField_toNat, ← BitVec.toNat_inj]
  rfl

theorem decodePlain_of_cf_eq_zero {c : CmdWord} (h : natField c.toNat 4 5 = 0) (i : Instr) :
    decodePlain (cfField c) i = .command i :=
  if_pos ((cfField_eq_zero_iff c).mpr h)

theorem decodePlain_of_cf_ne_zero {c : CmdWord} (h : natField c.toNat 4 5 ≠ 0) (i : Instr) :
    decodePlain (cfField c) i = .illegal .configOnPlainOp :=
  if_neg (mt (cfField_eq_zero_iff c).mp h)

/-! ### The operation OP selects (R55, R65) -/

/-- The three kinds of operation R62 tells apart, with the command each stands for. -/
inductive Operation where
  | plain (i : Instr)
  | config (mk : Cfg → Instr)
  | reserved

/-- The operation an OP value selects for a transaction's operands (R55). -/
def operation (c : Command) : Nat → Operation
  | 0 => .plain .nop
  | 1 => .config .init
  | 2 => .plain (.mixb c.opa)
  | 3 => .plain (.unit c.opa)
  | 4 => .plain (.scann c.opa c.opb)
  | 5 => .plain (.scanz c.opa)
  | 6 => .config fun cf => .hashn cf c.opa c.opb
  | 7 => .config fun cf => .hashz cf c.opa
  | _ => .reserved

/-- What a word of a kind of operation decodes to, once its RSV field is 0. -/
def Operation.decode (user : Bool) (cf : BitVec 5) : Operation → Decoded
  | .plain i => decodePlain cf i
  | .config mk => decodeConfig user cf mk
  | .reserved => .illegal .reservedOp

/-- What `Legal` asks of OP and CF, for a kind of operation (R62). -/
def Operation.Allows (user : Bool) (cmd : Nat) : Operation → Prop
  | .plain _ => natField cmd 4 5 = 0
  | .config _ => CfLegal user cmd
  | .reserved => False

section
variable {user : Bool} {c : Command}

theorem rsvField_eq_zero_iff (c : CmdWord) : rsvField c = 0 ↔ natField c.toNat 9 23 = 0 := by
  rw [← rsvField_toNat, ← BitVec.toNat_inj]
  rfl

theorem decodeWith_of_rsv_ne_zero (h : natField c.cmd.toNat 9 23 ≠ 0) :
    decodeWith user c = .illegal .reservedBits :=
  if_pos (mt (rsvField_eq_zero_iff c.cmd).mp h)

theorem decodeWith_of_rsv_eq_zero (h : natField c.cmd.toNat 9 23 = 0) :
    decodeWith user c = (operation c (natField c.cmd.toNat 0 4)).decode user (cfField c.cmd) := by
  rw [decodeWith, if_neg (not_not.mpr ((rsvField_eq_zero_iff c.cmd).mpr h)), opField_toNat]
  match natField c.cmd.toNat 0 4 with
  | 0 | 1 | 2 | 3 | 4 | 5 | 6 | 7 => rfl
  | _ + 8 => rfl

theorem legal_iff : Legal user c.cmd.toNat ↔
    natField c.cmd.toNat 9 23 = 0 ∧ (operation c (natField c.cmd.toNat 0 4)).Allows user c.cmd.toNat := by
  unfold Legal
  match natField c.cmd.toNat 0 4 with
  | 0 | 1 | 2 | 3 | 4 | 5 | 6 | 7 => simp [operation, Operation.Allows, CfLegal]
  | _ + 8 => simp [operation, Operation.Allows]

/-! ### Legal and illegal words (R67) -/

theorem decodeWith_plain_of_legal {op : Nat} {i : Instr} (h : Legal user c.cmd.toNat)
    (hop : natField c.cmd.toNat 0 4 = op) (hi : operation c op = .plain i) : decodeWith user c = .command i := by
  obtain ⟨hrsv, hcf⟩ := legal_iff.mp h
  rw [hop, hi] at hcf
  rw [decodeWith_of_rsv_eq_zero hrsv, hop, hi]
  exact decodePlain_of_cf_eq_zero hcf i

theorem decodeWith_config_of_legal {op : Nat} {mk : Cfg → Instr} (h : Legal user c.cmd.toNat)
    (hop : natField c.cmd.toNat 0 4 = op) (hmk : operation c op = .config mk) :
    ∃ cf, (cfgBits cf).toNat = natField c.cmd.toNat 4 5 ∧ decodeWith user c = .command (mk cf) := by
  obtain ⟨hrsv, hcf⟩ := legal_iff.mp h
  rw [hop, hmk] at hcf
  rw [decodeWith_of_rsv_eq_zero hrsv, hop, hmk]
  exact decodeConfig_of_cfLegal hcf mk

theorem decodeWith_of_not_legal (h : ¬ Legal user c.cmd.toNat) : ∃ r, decodeWith user c = .illegal r := by
  by_cases hrsv : natField c.cmd.toNat 9 23 = 0
  case neg => exact ⟨_, decodeWith_of_rsv_ne_zero hrsv⟩
  have hcf := fun ha => h (legal_iff.mpr ⟨hrsv, ha⟩)
  rw [decodeWith_of_rsv_eq_zero hrsv]
  cases ho : operation c (natField c.cmd.toNat 0 4) with rw [ho] at hcf
  | plain i => exact ⟨_, decodePlain_of_cf_ne_zero hcf i⟩
  | config mk => exact decodeConfig_of_not_cfLegal hcf mk
  | reserved => exact ⟨_, rfl⟩

theorem decodeWith_command_iff_legal : (∃ i, decodeWith user c = .command i) ↔ Legal user c.cmd.toNat := by
  constructor
  · rintro ⟨i, hi⟩
    by_contra h
    obtain ⟨r, hr⟩ := decodeWith_of_not_legal h
    simp [hi] at hr
  · intro h
    cases ho : operation c (natField c.cmd.toNat 0 4) with
    | plain i => exact ⟨i, decodeWith_plain_of_legal h rfl ho⟩
    | config mk =>
      obtain ⟨cf, -, hd⟩ := decodeWith_config_of_legal h rfl ho
      exact ⟨mk cf, hd⟩
    | reserved =>
      obtain ⟨-, ha⟩ := legal_iff.mp h
      rw [ho] at ha
      exact ha.elim

end

/-- Settles O5: `operation` tabulates what OP selects, and R62's condition is the one its kind decodes under. -/
theorem decodeSelectsByOp : Obligations.DecodeSelectsByOp := fun _ _ =>
  ⟨decodeWith_of_not_legal, fun h =>
    ⟨fun hop => decodeWith_plain_of_legal h hop rfl,
     fun hop => decodeWith_config_of_legal h hop rfl,
     fun hop => decodeWith_plain_of_legal h hop rfl,
     fun hop => decodeWith_plain_of_legal h hop rfl,
     fun hop => decodeWith_plain_of_legal h hop rfl,
     fun hop => decodeWith_plain_of_legal h hop rfl,
     fun hop => decodeWith_config_of_legal h hop rfl,
     fun hop => decodeWith_config_of_legal h hop rfl⟩⟩

/-- Accepting an illegal word (R109): the command is consumed and ILL is set. -/
theorem step_of_not_legal {s : State} {c : Command} {cs : List Command} (hr : s.rst = false)
    (hb : s.status.busy = false) (hp : s.pending = c :: cs) (hl : ¬ Legal Config.hasXfUser c.cmd.toNat) :
    step s = .next { s with pending := cs, status := { s.status with ill := true } } := by
  obtain ⟨r, hd⟩ := decodeWith_of_not_legal hl
  rw [step_command hr hb hp, commandStep_illegal hd, raiseIllegal, acceptCommand, hp]
  rfl

/-- Settles O4: a word that is not legal decodes to no command, and the step that accepts it raises the fault. -/
theorem legalWordsDecodeAndIllegalWordsFault : Obligations.LegalWordsDecodeAndIllegalWordsFault :=
  ⟨fun _ _ => decodeWith_command_iff_legal, fun _ _ _ => step_of_not_legal⟩

end Sys2Proof.Machine

/-!
The Byte Mixer and the Hash Engine over unsigned integers (R71, R77 to R82), and with them the results of MIXB and UNIT
(R61, R63).
-/

namespace Sys2Proof.Machine

/-! ### The mixer (R71) -/

theorem byte_setWidth_toNat (w : Width) (b : Byte) : (b.setWidth w.bits).toNat = b.toNat := by
  have hw : 8 ≤ w.bits := by cases w <;> decide
  rw [BitVec.toNat_setWidth, Nat.mod_eq_of_lt]
  exact Nat.lt_of_lt_of_le b.isLt (Nat.pow_le_pow_right (by decide) hw)

theorem mix_toNat (w : Width) (s : BitVec w.bits) (b : Byte) : (mix w s b).toNat = natMix w s.toNat b.toNat := by
  rw [mix, BitVec.toNat_mul, BitVec.toNat_xor, byte_setWidth_toNat, prime_toNat, natMix]

theorem foldl_mix_toNat (w : Width) (bytes : List Byte) (s : BitVec w.bits) :
    (bytes.foldl (mix w) s).toNat = (bytes.map BitVec.toNat).foldl (natMix w) s.toNat := by
  induction bytes generalizing s with
  | nil => rfl
  | cons b rest ih => rw [List.foldl_cons, ih, mix_toNat, List.map_cons, List.foldl_cons]

/-! ### Transforms (R77 to R80) -/

theorem asciiToLower_toNat {n : Nat} (hn : 8 ≤ n) (v : BitVec n) :
    (asciiToLower v).toNat = if 0x41 ≤ v.toNat ∧ v.toNat ≤ 0x5A then v.toNat + 0x20 else v.toNat := by
  have hrange : 2 ^ 8 ≤ 2 ^ n := Nat.pow_le_pow_right (by decide) hn
  unfold asciiToLower
  split
  · rw [BitVec.toNat_add, BitVec.toNat_ofNat, Nat.add_mod_mod, Nat.mod_eq_of_lt (by omega)]
  · rfl

theorem asciiToUpper_toNat {n : Nat} (hn : 8 ≤ n) (v : BitVec n) :
    (asciiToUpper v).toNat = if 0x61 ≤ v.toNat ∧ v.toNat ≤ 0x7A then v.toNat - 0x20 else v.toNat := by
  have hrange : 2 ^ 8 ≤ 2 ^ n := Nat.pow_le_pow_right (by decide) hn
  have hconst : (BitVec.ofNat n 0x20).toNat = 0x20 := Nat.mod_eq_of_lt (by omega)
  unfold asciiToUpper
  split
  · rw [BitVec.toNat_sub_of_le (by rw [BitVec.le_def, hconst]; omega), hconst]
  · rfl

theorem transform_toNat (x : Xform) (cu : CuWidth) (v : BitVec cu.bits) :
    (transform x cu v).toNat = natTransform x cu v.toNat := by
  have hcu : 8 ≤ cu.bits := by cases cu <;> decide
  cases x with
  | identity => rfl
  | asciiToLower => exact asciiToLower_toNat hcu v
  | asciiToUpper => exact asciiToUpper_toNat hcu v
  | user => rw [natTransform, BitVec.ofNat_toNat, BitVec.setWidth_eq, transform]

/-! ### Decomposition and feed (R81, R82) -/

theorem extractLsb'_byte_toNat {n : Nat} (v : BitVec n) (lo : Nat) :
    (v.extractLsb' lo 8).toNat = (v.toNat >>> lo) &&& 0xFF := by
  rw [BitVec.extractLsb'_toNat]
  exact (Nat.and_two_pow_sub_one_eq_mod _ 8).symm

theorem unitBytes_toNat (cu : CuWidth) (v : BitVec cu.bits) :
    (unitBytes cu v).map BitVec.toNat = natBytes cu v.toNat := by
  simp only [unitBytes, List.map_map, Function.comp_def, extractLsb'_byte_toNat]
  cases cu <;> rfl

theorem feed_toNat (w : Width) (cu : CuWidth) (x : Xform) (s : BitVec w.bits) (u : BitVec cu.bits) :
    (feed w cu x s u).toNat = natFeed w cu x s.toNat u.toNat := by
  rw [feed, foldl_mix_toNat, unitBytes_toNat, transform_toNat, natFeed]

theorem feedAcc_toNat (cf : Cfg) (acc : Word) (u : BitVec cf.cu.bits) :
    (feedAcc cf acc u).toNat = natFeed cf.w cf.cu cf.xf (acc.toNat % 2 ^ cf.w.bits) u.toNat := by
  rw [feedAcc, zext64_toNat, feed_toNat, accAt_toNat]

/-! ### MIXB and UNIT (R61, R63) -/

theorem byteOperand_toNat (opa : Word) : (byteOperand opa).toNat = opa.toNat % 2 ^ 8 := BitVec.toNat_setWidth ..

theorem unitOperand_toNat (cu : CuWidth) (opa : Word) : (unitOperand cu opa).toNat = opa.toNat % 2 ^ cu.bits :=
  BitVec.toNat_setWidth ..

/-- Settles O24: MIXB writes ACC alone, with the integer mix of ACC at its width and the low byte of opa. -/
theorem mixbMixesOneByte : Obligations.MixbMixesOneByte := by
  intro opa s
  refine ⟨_, exec_mixb opa s, ?_, rfl⟩
  rw [zext64_toNat, mix_toNat, accAt_toNat, byteOperand_toNat]

/-- Settles O25: UNIT writes ACC alone, with the integer feed of the low cuw bits of opa, cuw from the latched CFG. -/
theorem unitFeedsOneUnit : Obligations.UnitFeedsOneUnit := by
  intro opa s
  refine ⟨_, exec_unit opa s, ?_, rfl⟩
  rw [feedAcc_toNat, unitOperand_toNat]

end Sys2Proof.Machine

/-!
The Byte Mixer against the spec's pseudocode (R71).
-/

namespace Sys2Proof.Machine

/-- Settles O15: in `mix_toNat` the byte's zero extension and PRIME(W) keep their values, and only the product wraps
modulo 2^W. -/
theorem mixIsIntegerMix : Obligations.MixIsIntegerMix := by
  intro w s b
  exact mix_toNat w s b

end Sys2Proof.Machine

/-!
The code-unit decomposer and the fold of feed against the spec's pseudocode (R81 to R83).
-/

namespace Sys2Proof.Machine

/-! ### Decomposition (R81) -/

/-- Settles O17: each 8-bit slice of the unit is a shift and a mask of its value (`unitBytes_toNat`). -/
theorem unitBytesLowFirst : Obligations.UnitBytesLowFirst := by
  intro cu v
  exact unitBytes_toNat cu v

/-! ### The fold of feed (R83) -/

theorem foldl_feed_toNat (w : Width) (cu : CuWidth) (x : Xform) (us : List (BitVec cu.bits)) (s : BitVec w.bits) :
    (us.foldl (feed w cu x) s).toNat = (us.map BitVec.toNat).foldl (natFeed w cu x) s.toNat := by
  induction us generalizing s with
  | nil => rfl
  | cons u rest ih => rw [List.foldl_cons, ih, feed_toNat, List.map_cons, List.foldl_cons]

theorem hashUnits_toNat (w : Width) (cu : CuWidth) (x : Xform) (us : List (BitVec cu.bits)) :
    (hashUnits w cu x us).toNat = natHash w cu x (us.map BitVec.toNat) := by
  rw [hashUnits, foldl_feed_toNat, basis_toNat, natHash]

theorem hashUnits_nil (w : Width) (cu : CuWidth) (x : Xform) : hashUnits w cu x [] = basis w := rfl

/-- Settles O18: `toNat` carries feed to the integer feed, so it carries the fold from the basis to the integer fold. -/
theorem feedAndHashAreIntegerFolds : Obligations.FeedAndHashAreIntegerFolds := by
  refine ⟨feed_toNat, hashUnits_toNat, fun w cu x => ?empty⟩
  case empty => rw [hashUnits_nil, basis_toNat]

end Sys2Proof.Machine

/-!
One step of a terminated scan (R98, R99), in terms of the unit it reads.
-/

namespace Sys2Proof.Machine

/-- The raw sentinel ends the scan and is not mixed (R98). -/
theorem terminatedStep_of_sentinel {s : State} {d : Nat} (hr : unitRead s s.cfg.cu s.ptr = some (0, d)) :
    terminatedStep s = .next { endScan s with draws := d } := by
  rw [terminatedStep, hr]
  exact if_pos rfl

/-- Any other unit is fed to the accumulator (R99). -/
theorem terminatedStep_of_unit {s : State} {u : BitVec s.cfg.cu.bits} {d : Nat}
    (hr : unitRead s s.cfg.cu s.ptr = some (u, d)) (hu : u ≠ 0) :
    terminatedStep s = .next { mixRead s u with draws := d } := by
  rw [terminatedStep, hr]
  exact if_neg hu

/-- Settles O34: a stable unit is read as it stands and takes no draw, so the step is the one its raw value selects. -/
theorem terminatedScanStep : Obligations.TerminatedScanStep := by
  intro s u hrst hb hm hv hrace
  have hstep : step s = terminatedStep s := by rw [step_scan hrst hb, scanStep_terminated hm]
  have hr : unitRead s s.cfg.cu s.ptr = some (u, s.draws) := unitRead_stable hv hrace
  refine ⟨fun hu => ?sentinel, fun hu => ⟨mixRead s u, ?feeds, ?acc, ?ptr, rfl⟩⟩
  case sentinel =>
    subst hu
    rw [hstep, terminatedStep_of_sentinel hr]
    rfl
  case feeds =>
    rw [hstep, terminatedStep_of_unit hr hu]
    rfl
  case acc => rw [mixRead_acc, feedAcc_toNat]
  case ptr => exact BitVec.toNat_add s.ptr 1

end Sys2Proof.Machine

/-!
The encoder, the match/mask table and the assembler against the decoder (R54, R55, R60, R67 to R70): a transaction
decodes to a command exactly when it carries the command's word and the operands the command reads.
-/

namespace Sys2Proof.Machine

/-! ### Decoding a word made of fields (R54) -/

/-- A word with RSV = 0 decodes as its OP and CF fields say. -/
theorem decodeWith_cmdWord (user : Bool) (cf : BitVec 5) (op : BitVec 4) (a b : Word) :
    decodeWith user { cmd := cmdWord cf op, opa := a, opb := b } =
      (operation { cmd := cmdWord cf op, opa := a, opb := b } op.toNat).decode user cf := by
  have hrsv : natField (cmdWord cf op).toNat 9 23 = 0 := by rw [← rsvField_toNat, rsvField_cmdWord]; rfl
  rw [decodeWith_of_rsv_eq_zero hrsv, ← opField_toNat, opField_cmdWord, cfField_cmdWord]

theorem decodeConfig_cfgBits {user : Bool} {cf : Cfg} (h : cf.legalWith user = true) (mk : Cfg → Instr) :
    decodeConfig user (cfgBits cf) mk = .command (mk cf) := by
  rw [decodeConfig, cfgOfBits_cfgBits h]

/-- The operands a command reads are those of the transaction (R55). -/
def CarriesOperands (c : Command) : Instr → Prop
  | .nop | .init _ => True
  | .mixb a | .unit a | .scanz a | .hashz _ a => a = c.opa
  | .scann a n | .hashn _ a n => a = c.opa ∧ n = c.opb

theorem carriesOperands_encode (i : Instr) : CarriesOperands (encode i) i := by
  cases i <;> simp [CarriesOperands, encode]

/-- A well-formed command's word, with the operands it reads, decodes to it (R67). -/
theorem decodeWith_of_encode {user : Bool} {c : Command} {i : Instr} (hwf : i.wellFormedWith user = true)
    (hcmd : (encode i).cmd = c.cmd) (hops : CarriesOperands c i) : decodeWith user c = .command i := by
  obtain ⟨w, a, b⟩ := c
  subst hcmd
  cases i with
  | nop => exact decodeWith_cmdWord user 0 0 a b
  | mixb x => subst hops; exact decodeWith_cmdWord user 0 2 x b
  | unit x => subst hops; exact decodeWith_cmdWord user 0 3 x b
  | scann x n => obtain ⟨rfl, rfl⟩ := hops; exact decodeWith_cmdWord user 0 4 x n
  | scanz x => subst hops; exact decodeWith_cmdWord user 0 5 x b
  | init cf => exact (decodeWith_cmdWord user _ 1 a b).trans (decodeConfig_cfgBits hwf .init)
  | hashn cf x n =>
    obtain ⟨rfl, rfl⟩ := hops
    exact (decodeWith_cmdWord user _ 6 x n).trans (decodeConfig_cfgBits hwf fun g => .hashn g x n)
  | hashz cf x =>
    subst hops
    exact (decodeWith_cmdWord user _ 7 x b).trans (decodeConfig_cfgBits hwf fun g => .hashz g x)

/-- Settles O2: the encoder writes the word and the operands the decoder asks for. -/
theorem decodeOfEncode : Obligations.DecodeOfEncode :=
  fun i h => decodeWith_of_encode h rfl (carriesOperands_encode i)

/-! ### Encode of decode (R55) -/

theorem decodePlain_eq_command {cf : BitVec 5} {i j : Instr} (h : decodePlain cf i = .command j) : cf = 0 ∧ i = j := by
  unfold decodePlain at h
  split at h
  · next hcf => exact ⟨hcf, Decoded.command.inj h⟩
  · cases h

theorem decodeConfig_eq_command {user : Bool} {cf : BitVec 5} {mk : Cfg → Instr} {j : Instr}
    (h : decodeConfig user cf mk = .command j) : ∃ g, g.legalWith user = true ∧ cfgBits g = cf ∧ mk g = j := by
  unfold decodeConfig at h
  split at h
  · next g hg =>
    obtain ⟨hlegal, hbits⟩ := cfgOfBits_ok hg
    exact ⟨g, hlegal, hbits, Decoded.command.inj h⟩
  · cases h

/-- A word with RSV = 0 is its CF and OP fields. -/
theorem eq_cmdWord_of_rsv_eq_zero {c : CmdWord} (h : rsvField c = 0) : c = cmdWord (cfField c) (opField c) := by
  have hfields := cmdWord_fields c
  rwa [h] at hfields

/-- What a transaction decodes to is well-formed, has its word, and takes its operands. -/
theorem encode_of_decodeWith {user : Bool} {c : Command} {i : Instr} (h : decodeWith user c = .command i) :
    i.wellFormedWith user = true ∧ (encode i).cmd = c.cmd ∧ CarriesOperands c i := by
  obtain ⟨hrsv, -⟩ := legal_iff.mp (decodeWith_command_iff_legal.mp ⟨i, h⟩)
  rw [decodeWith_of_rsv_eq_zero hrsv] at h
  have hop : opField c.cmd = BitVec.ofNat 4 (natField c.cmd.toNat 0 4) := by
    rw [← opField_toNat, BitVec.ofNat_toNat, BitVec.setWidth_eq]
  rw [eq_cmdWord_of_rsv_eq_zero ((rsvField_eq_zero_iff _).mpr hrsv), hop]
  match hn : natField c.cmd.toNat 0 4 with
  | 0 | 2 | 3 | 4 | 5 =>
    rw [hn] at h
    obtain ⟨hcf, rfl⟩ := decodePlain_eq_command h
    rw [hcf]
    simp [Instr.wellFormedWith, encode, CarriesOperands]
  | 1 | 6 | 7 =>
    rw [hn] at h
    obtain ⟨g, hlegal, hbits, rfl⟩ := decodeConfig_eq_command h
    rw [← hbits]
    simp [Instr.wellFormedWith, encode, CarriesOperands, hlegal]
  | k + 8 =>
    rw [hn] at h
    cases h

theorem decodeWith_eq_command_iff {user : Bool} {c : Command} {i : Instr} : decodeWith user c = .command i ↔
    i.wellFormedWith user = true ∧ (encode i).cmd = c.cmd ∧ CarriesOperands c i :=
  ⟨encode_of_decodeWith, fun ⟨hwf, hcmd, hops⟩ => decodeWith_of_encode hwf hcmd hops⟩

/-- Settles O3: a word with RSV = 0 is its CF and OP fields, and each operation keeps them and takes its operands. -/
theorem encodeOfDecode : Obligations.EncodeOfDecode := by
  intro c i h
  obtain ⟨hwf, hcmd, hops⟩ := encode_of_decodeWith h
  refine ⟨hwf, hcmd, ?_⟩
  cases i <;> exact hops

/-! ### Words the spec writes out (R68) -/

/-- Settles O1: each word is the encoder's word of the command it names. -/
theorem decodesWordsOfTheSpec : Obligations.DecodesWordsOfTheSpec := by
  intro user a b
  simp only [decodeWith_eq_command_iff, CarriesOperands, Instr.wellFormedWith, Cfg.legalWith, encode, true_and,
    and_true]
  decide

/-! ### The match/mask table (R70) -/

theorem and_fullMask (c : CmdWord) : c &&& 0xFFFFFFFF = c := BitVec.and_allOnes

/-- The mask of the configured rows keeps RSV and OP. -/
theorem rsvField_configMask (c : CmdWord) : rsvField (c &&& 0xFFFFFE0F) = rsvField c := by
  rw [rsvField, BitVec.extractLsb'_and]
  exact BitVec.and_allOnes

theorem opField_configMask (c : CmdWord) : opField (c &&& 0xFFFFFE0F) = opField c := by
  rw [opField, BitVec.extractLsb'_and]
  exact BitVec.and_allOnes

/-- The words of a configured row: RSV and OP are the row's, and CF stands for a configuration. -/
theorem exists_cfg_word_iff {user : Bool} {c : CmdWord} {op : BitVec 4} :
    (∃ cf : Cfg, cf.legalWith user = true ∧ cmdWord (cfgBits cf) op = c) ↔
      c &&& 0xFFFFFE0F = cmdWord 0 op ∧ CfLegal user c.toNat := by
  constructor
  · rintro ⟨cf, hlegal, rfl⟩
    refine ⟨Laws.cmdWord_masked _ _, ?_⟩
    rw [← cfgOfBits_cfField_isOk_iff, cfField_cmdWord, cfgOfBits_cfgBits hlegal]
    rfl
  · rintro ⟨hmask, hcf⟩
    have hrsv : rsvField c = 0 := by rw [← rsvField_configMask, hmask, rsvField_cmdWord]
    have hop : opField c = op := by rw [← opField_configMask, hmask, opField_cmdWord]
    obtain ⟨_, -, hd⟩ := decodeConfig_of_cfLegal hcf .init
    obtain ⟨cf, hlegal, hbits, -⟩ := decodeConfig_eq_command hd
    exact ⟨cf, hlegal, by rw [hbits, ← hop, ← eq_cmdWord_of_rsv_eq_zero hrsv]⟩

/-- Settles O6: a plain row's word is the encoder's, a configured row's words are those `exists_cfg_word_iff` gives, and
the operands a row asks for are always there. -/
theorem tableRowsMatchDecode : Obligations.TableRowsMatchDecode := by
  intro user c
  have plain (op : BitVec 4) : cmdWord 0 op = c.cmd ↔ c.cmd &&& 0xFFFFFFFF = cmdWord 0 op := by
    rw [and_fullMask, eq_comm]
  have config (op : BitVec 4) := exists_cfg_word_iff (user := user) (c := c.cmd) (op := op)
  refine ⟨?_, ?_, ?_, ?_, ?_, ?_, ?_, ?_, fun h => ?illegal⟩
  case illegal =>
    cases hd : decodeWith user c with
    | command i => exact absurd hd (h i)
    | illegal r => exact ⟨r, rfl⟩
  all_goals simp only [decodeWith_eq_command_iff, CarriesOperands, Instr.wellFormedWith, encode, true_and, and_true,
    exists_and_left, exists_eq]
  · exact plain 0
  · exact config 1
  · exact plain 2
  · exact plain 3
  · exact plain 4
  · exact plain 5
  · exact config 6
  · exact config 7

/-! ### Operand bits that are ignored (R55, R60, R61, R63) -/

/-- Decoding reads the operands through the operation OP selects alone. -/
theorem decodeWith_congr {user : Bool} {c c' : Command} (hcmd : c'.cmd = c.cmd)
    (hop : operation c' (natField c.cmd.toNat 0 4) = operation c (natField c.cmd.toNat 0 4)) :
    decodeWith user c' = decodeWith user c := by
  by_cases hrsv : natField c.cmd.toNat 9 23 = 0
  · rw [decodeWith_of_rsv_eq_zero hrsv, decodeWith_of_rsv_eq_zero (by rwa [hcmd]), hcmd, hop]
  · rw [decodeWith_of_rsv_ne_zero hrsv, decodeWith_of_rsv_ne_zero (by rwa [hcmd])]

/-- No operation but SCANN and HASHN reads opb. -/
theorem operation_with_opb (c : Command) (opb : Word) {op : Nat} (h4 : op ≠ 4) (h6 : op ≠ 6) :
    operation { c with opb := opb } op = operation c op := by
  match op with
  | 0 | 1 | 2 | 3 | 5 | 7 => rfl
  | 4 | 6 => contradiction
  | _ + 8 => rfl

/-- NOP and INIT read no operand. -/
theorem operation_with_opa (c : Command) (opa : Word) {op : Nat} (h : op ≤ 1) :
    operation { c with opa := opa } op = operation c op := by
  match op with
  | 0 | 1 => rfl
  | _ + 2 => omega

theorem byteOperand_congr {a b : Word} (h : a.toNat % 2 ^ 8 = b.toNat % 2 ^ 8) : byteOperand a = byteOperand b :=
  BitVec.eq_of_toNat_eq (by rw [byteOperand_toNat, byteOperand_toNat, h])

theorem unitOperand_congr {cu : CuWidth} {a b : Word} (h : a.toNat % 2 ^ cu.bits = b.toNat % 2 ^ cu.bits) :
    unitOperand cu a = unitOperand cu b :=
  BitVec.eq_of_toNat_eq (by rw [unitOperand_toNat, unitOperand_toNat, h])

/-- Settles O31: the meanings read their operand through `byteOperand` and `unitOperand`, and the decoder hands on the
operands of the operation OP selects. -/
theorem otherOperandBitsIgnored : Obligations.OtherOperandBitsIgnored := by
  refine ⟨fun a b s h => ?mixb, fun a b s h => ?unit, fun user c opb h4 h6 => ?opb, fun user c opa h => ?opa⟩
  case mixb => rw [exec_mixb, exec_mixb, byteOperand_congr h]
  case unit => rw [exec_unit, exec_unit, unitOperand_congr h]
  case opb => exact decodeWith_congr rfl (operation_with_opb c opb h4 h6)
  case opa => exact decodeWith_congr rfl (operation_with_opa c opa h)

/-! ### The assembler (R69) -/

theorem allOf_eq_some_map {α β : Type} {f : α → Option β} {g : α → β} {l : List α} (h : ∀ a ∈ l, f a = some (g a)) :
    allOf f l = some (l.map g) := by
  induction l with
  | nil => rfl
  | cons a rest ih =>
    obtain ⟨ha, hrest⟩ := List.forall_mem_cons.mp h
    simp only [allOf, ha, ih hrest, List.map_cons]

theorem allOf_eq_none {α β : Type} {f : α → Option β} {l : List α} {a : α} (ha : a ∈ l) (hf : f a = none) :
    allOf f l = none := by
  induction l with
  | nil => cases ha
  | cons b rest ih =>
    obtain rfl | hrest := List.mem_cons.mp ha
    · simp only [allOf, hf]
    · cases hb : f b <;> simp only [allOf, hb, ih hrest]

theorem nonEmpty_of_ne_nil {α : Type} {l : List α} (h : l ≠ []) : nonEmpty l = some l := by
  cases l with
  | nil => contradiction
  | cons a rest => rfl

theorem allOf_asmWord {vs : List Nat} (h : ∀ v ∈ vs, v < 2 ^ 64) :
    allOf asmWord vs = some (vs.map (BitVec.ofNat 64)) :=
  allOf_eq_some_map fun v hv => if_pos (h v hv)

theorem allOf_asmByte {bs : List Nat} (h : ∀ b ∈ bs, b < 256) : allOf asmByte bs = some (bs.map (BitVec.ofNat 64)) :=
  allOf_eq_some_map fun b hb => if_pos (h b hb)

theorem allOf_asmChar {cs : List Char} (h : ∀ c ∈ cs, c.toNat < 128) : allOf asmChar cs = some (cs.map Char.toNat) :=
  allOf_eq_some_map fun c hc => if_pos (h c hc)

theorem expandUnits_of_lt {vs : List Nat} (h : ∀ v ∈ vs, v < 2 ^ 64) :
    expandUnits vs = some ((vs.map (BitVec.ofNat 64)).map .unit) := by
  rw [expandUnits, allOf_asmWord h, Option.map_some]

/-- The words of UNIT and MIXB written out (R68). -/
theorem encode_unit (a : Word) : encode (.unit a) = { cmd := 3, opa := a, opb := 0 } := by
  rw [encode, show cmdWord 0 3 = 3 by decide]

theorem encode_mixb (a : Word) : encode (.mixb a) = { cmd := 2, opa := a, opb := 0 } := by
  rw [encode, show cmdWord 0 2 = 2 by decide]

/-- Settles O56: the operands expand all together or the line is refused, and each stands for one UNIT or MIXB. -/
theorem pseudoCommandsExpand : Obligations.PseudoCommandsExpand := by
  refine ⟨fun vs hne h => ?units, fun bs hne h => ?mixbs, fun cs h => ?unitstr, fun cf vs h => ?hashv, rfl, rfl,
    fun bs ⟨b, hb, hbig⟩ => ?bigByte, fun vs ⟨v, hv, hbig⟩ => ?bigNumber⟩
  case units =>
    rw [assembleLine, expandLine, nonEmpty_of_ne_nil hne, Option.bind_some, expandUnits_of_lt h]
    simp [encode_unit]
  case mixbs =>
    rw [assembleLine, expandLine, nonEmpty_of_ne_nil hne, Option.bind_some, allOf_asmByte h]
    simp [encode_mixb]
  case unitstr =>
    have hcodes : ∀ v ∈ cs.map Char.toNat, v < 2 ^ 64 := by
      intro v hv
      obtain ⟨c, hc, rfl⟩ := List.mem_map.mp hv
      exact Nat.lt_trans (h c hc) (by decide)
    rw [assembleLine, expandLine, allOf_asmChar h, Option.bind_some, expandUnits_of_lt hcodes]
    simp [encode_unit]
  case hashv =>
    rw [assembleLine, expandLine, expandUnits_of_lt h]
    simp [encode_unit]
  case bigByte =>
    have hnone : asmByte b = none := if_neg (by omega)
    rw [assembleLine, expandLine, nonEmpty_of_ne_nil (List.ne_nil_of_mem hb), Option.bind_some,
      allOf_eq_none hb hnone]
    rfl
  case bigNumber =>
    have hnone : asmWord v = none := if_neg (by omega)
    rw [assembleLine, expandLine, nonEmpty_of_ne_nil (List.ne_nil_of_mem hv), Option.bind_some, expandUnits,
      allOf_eq_none hv hnone]
    rfl

end Sys2Proof.Machine

/-!
The invariant of the registers and of the view (R18, R22, R29, R38): the reset state meets it, every step keeps it, and
so does every action of the host and of other agents.
-/

namespace Sys2Proof.Machine

/-! ### The registers (R18, R22, R29) -/

/-- A value extended from W bits leaves ACC[63:32] = 0 in 32-bit mode. -/
theorem zext64_accHigh {w : Width} (v : BitVec w.bits) (hw : w = .w32) : (zext64 v).extractLsb' 32 32 = 0 := by
  subst hw
  exact zext64_high v

/-- The registers the invariant speaks of are ACC, CFG, MODE and REM. -/
theorem RegInv.congr {s t : State} (h : RegInv s) (hacc : t.acc = s.acc) (hcfg : t.cfg = s.cfg)
    (hmode : t.status.mode = s.status.mode) (hrem : t.rem = s.rem) : RegInv t :=
  ⟨by rw [hacc, hcfg]; exact h.accHigh, by rw [hcfg]; exact h.userLegal, by rw [hmode, hrem]; exact h.remTerminated⟩

theorem RegInv.withAcc {s : State} (h : RegInv s) (v : BitVec s.cfg.w.bits) : RegInv { s with acc := zext64 v } :=
  ⟨zext64_accHigh v, h.userLegal, h.remTerminated⟩

theorem RegInv.beginComputation {s : State} (h : RegInv s) {cf : Cfg} (hcf : cf.legalWith Config.hasXfUser = true) :
    RegInv (beginComputation cf s) := by
  refine ⟨zext64_accHigh (basis cf.w), fun hx => ?user, h.remTerminated⟩
  case user =>
    rw [beginComputation_cfg] at hx
    rwa [Cfg.legalWith, hx] at hcf

theorem RegInv.startScan {s : State} (h : RegInv s) {mode : ScanMode} {start len : Word}
    (hlen : mode = .terminated → len = 0) : RegInv (startScan mode start len s) :=
  ⟨h.accHigh, h.userLegal, hlen⟩

theorem RegInv.resetIn (native : Width) (pending : List Command) (view : InputView) (racing : List Nat) (draws : Nat) :
    RegInv (State.resetIn native pending view racing draws) :=
  ⟨zext64_accHigh (basis native), nofun, nofun⟩

/-- A well-formed command keeps the register invariant. -/
theorem RegInv.exec {i : Instr} {s t : State} (h : RegInv s) (hwf : i.wellFormed = true) (he : exec i s = .next t) :
    RegInv t := by
  cases i <;> cases he
  case nop => exact h
  case init cf => exact h.beginComputation hwf
  case mixb b => exact h.withAcc _
  case unit b => exact h.withAcc _
  case scann a n => exact h.startScan nofun
  case scanz a => exact h.startScan fun _ => rfl
  case hashn cf a n => exact (h.beginComputation hwf).startScan nofun
  case hashz cf a => exact (h.beginComputation hwf).startScan fun _ => rfl

/-- REM counts down in sized mode only, where the invariant asks nothing of it. -/
theorem RegInv.scanStep {s t : State} (h : RegInv s) (hs : scanStep s = .next t) : RegInv t := by
  obtain ⟨d, rfl⟩ | ⟨u, d, -, ⟨hm, -, rfl⟩ | ⟨-, -, rfl⟩⟩ := scanStep_cases hs
  · exact h.congr rfl rfl rfl rfl
  · exact ⟨(h.withAcc _).accHigh, h.userLegal, fun hm' => absurd (hm.symm.trans hm') nofun⟩
  · exact (h.withAcc _).congr rfl rfl rfl rfl

/-- Every step keeps the register invariant. -/
theorem RegInv.step {s t : State} (h : RegInv s) (hs : step s = .next t) : RegInv t := by
  obtain ⟨-, rfl⟩ | ⟨-, -, hscan⟩ | ⟨-, -, -, rfl⟩ | ⟨c, cs, r, -, -, -, -, rfl⟩ | ⟨c, cs, i, -, -, -, hd, he⟩ :=
    step_cases hs
  case inl => exact RegInv.resetIn ..
  case inr.inl => exact h.scanStep hscan
  case inr.inr.inl => exact h
  case inr.inr.inr.inl => exact h.congr rfl rfl rfl rfl
  case inr.inr.inr.inr =>
    obtain ⟨hwf, -, -⟩ := encode_of_decodeWith hd
    exact RegInv.exec (h.congr (t := acceptCommand s) rfl rfl rfl rfl) hwf he

/-! ### The view and the marks (R38, R43) -/

theorem EnvInv.congr {s t : State} (h : EnvInv s) (hview : t.view = s.view)
    (hracing : t.racing = s.racing ∨ t.racing = []) : EnvInv t := by
  refine ⟨by rw [hview]; exact h.view, ?_⟩
  obtain hr | hr := hracing <;> rw [hr]
  · exact h.racing
  · rfl

/-- A command keeps the marks, or starts a scan without any. -/
theorem exec_racing {i : Instr} {s t : State} (h : exec i s = .next t) : t.racing = s.racing ∨ t.racing = [] := by
  cases i <;> cases h <;> simp

theorem step_racing {s t : State} (h : step s = .next t) : t.racing = s.racing ∨ t.racing = [] := by
  obtain ⟨-, rfl⟩ | ⟨-, -, hscan⟩ | ⟨-, -, -, rfl⟩ | ⟨c, cs, r, -, -, -, -, rfl⟩ | ⟨c, cs, i, -, -, -, -, he⟩ :=
    step_cases h
  case inl => exact .inl rfl
  case inr.inl =>
    obtain ⟨-, -, -, -, -, -, hracing⟩ := scanStep_frame hscan
    exact .inl hracing
  case inr.inr.inl => exact .inl rfl
  case inr.inr.inr.inl => exact .inl rfl
  case inr.inr.inr.inr => simpa using exec_racing he

/-! ### The invariant -/

/-- Settles O48: at reset ACC is an extended basis, the transform is the identity, the mode is sized, and the view and
the marks are empty. -/
theorem resetMeetsTheInvariant : Obligations.ResetMeetsTheInvariant :=
  fun _ => ⟨RegInv.resetIn .., ⟨rfl, rfl⟩⟩

/-- Settles O49: the registers are kept by each kind of step, a decoded command being well-formed; no step writes the
view, and the marks stay or go. -/
theorem stepKeepsTheInvariant : Obligations.StepKeepsTheInvariant :=
  fun _ _ h hs => ⟨h.regs.step hs, h.env.congr (step_view hs) (step_racing hs)⟩

/-! ### The host and other agents -/

theorem MachineInv.agentWrite {s : State} (h : MachineInv s) (cu : CuWidth) (a : Word) (v : BitVec cu.bits) :
    MachineInv (agentWrite cu a v s) := by
  rw [Sys2Proof.Machine.agentWrite]
  split
  case isFalse => exact h
  case isTrue =>
    refine ⟨h.regs.congr rfl rfl rfl rfl, Memory.wf_putUnit h.env.view cu a v, ?_⟩
    dsimp only
    split
    · exact addrsRise_insertAddr (Nat.zero_le _) a.isLt h.env.racing
    · exact h.env.racing

theorem MachineInv.supplyView {s : State} (h : MachineInv s) {iv : InputView} (hiv : Memory.wf iv = true) :
    MachineInv (supplyView iv s) := by
  refine ⟨h.regs.congr rfl rfl rfl rfl, ?_, ?_⟩
  · rw [supplyView_view]
    split
    · exact Memory.wf_revalueView iv h.env.view
    · exact hiv
  · rw [supplyView_racing]
    split
    · exact addrsRise_map_fst (Memory.wf_iff.mp h.env.view s.cfg.cu)
    · exact h.env.racing

/-- Settles O50: presenting a command and asserting rst touch nothing the invariant speaks of, and the operations on the
view keep its canonical form. -/
theorem outsideActionsKeepTheInvariant : Obligations.OutsideActionsKeepTheInvariant := fun _ h =>
  ⟨fun _ => ⟨h.regs.congr rfl rfl rfl rfl, h.env.congr rfl (.inl rfl)⟩,
   ⟨h.regs.congr rfl rfl rfl rfl, h.env.congr rfl (.inl rfl)⟩,
   h.agentWrite, fun _ => h.supplyView⟩

end Sys2Proof.Machine

/-!
The command port, reset and the output ports (R13, R19, R23, R33, R35, R36, R125), and the commands that write no
accumulator value of their own (R84, R85, R94, R97, R100, R101).
-/

namespace Sys2Proof.Machine

/-! ### The command port (R13, R33) -/

theorem acceptCommand_of_pending {s : State} {c : Command} {cs : List Command} (hp : s.pending = c :: cs) :
    acceptCommand s = { s with pending := cs } := by
  rw [acceptCommand, hp, List.tail_cons]

theorem step_of_decode {s : State} {c : Command} {cs : List Command} {i : Instr} (hr : s.rst = false)
    (hb : s.status.busy = false) (hp : s.pending = c :: cs) (hd : decode c = .command i) :
    step s = exec i { s with pending := cs } := by
  rw [step_command hr hb hp, commandStep_legal hd, acceptCommand_of_pending hp]

/-- Settles O10: the step takes its third branch, and the decoder its command branch. -/
theorem stepRunsDecodedCommand : Obligations.StepRunsDecodedCommand := fun _ _ _ _ => step_of_decode

theorem decode_of_decodeTableWord {nbits w : Nat} {i : Instr} (h : decodeTableWord nbits w = some i) :
    decode (commandOfBits nbits w) = .command i := by
  unfold decodeTableWord at h
  split at h
  · next j hd => rw [hd, Option.some.inj h]
  · cases h

/-- Settles O11: `presentNext` puts the word's transaction on the port with BUSY and rst clear. -/
theorem fetchWordIsRunNext : Obligations.FetchWordIsRunNext :=
  fun _ _ _ _ h => step_of_decode rfl rfl rfl (decode_of_decodeTableWord h)

/-- Settles O12: with no reset, no scan and nothing presented the step takes its last branch. -/
theorem idleStepChangesNothing : Obligations.IdleStepChangesNothing := fun _ => step_idle

/-- Settles O13: reset and scan steps keep the presented commands, and an accepted command, legal or not, is the first
of them. -/
theorem portHoldsOrAccepts : Obligations.PortHoldsOrAccepts := by
  intro s t h
  obtain ⟨hr, rfl⟩ | ⟨-, hb, hscan⟩ | ⟨hr, hb, hp, rfl⟩ | ⟨_, _, _, hr, hb, -, -, rfl⟩ |
    ⟨_, _, _, hr, hb, -, -, he⟩ := step_cases h
  case inl => simp [hr]
  case inr.inl =>
    obtain ⟨hpending, -⟩ := scanStep_frame hscan
    simp [hb, hpending]
  case inr.inr.inl => simp [hp]
  case inr.inr.inr.inl => simp [hr, hb]
  case inr.inr.inr.inr =>
    obtain ⟨hpending, -⟩ := exec_frame he
    simp [hr, hb, hpending]

/-! ### Reset (R36, R125, R127) -/

theorem statusOut_resetStep (s : State) : statusOut (resetStep s) = 0 := by
  rw [statusOut, resetStep_status]
  decide

/-- Settles O8: the reset branch comes first, and what it writes are the reset values of O7. -/
theorem resetStepWritesEveryRegister : Obligations.ResetStepWritesEveryRegister := by
  intro s hr
  obtain ⟨-, hvalues⟩ := resetValues
  obtain ⟨hacc, hcfg, -⟩ := hvalues Config.nativeW
  exact ⟨resetStep s, step_reset hr, hacc, hcfg, statusOut_resetStep s, rfl, rfl, rfl, rfl⟩

/-- Settles O9: reset loads the same basis and configuration as that INIT. -/
theorem resetIsInitOfNativeWidth : Obligations.ResetIsInitOfNativeWidth := by
  intro s hr
  refine ⟨resetStep s, _, step_reset hr, exec_init _ s, rfl, rfl, statusOut_resetStep s, rfl, rfl, ?_⟩
  rw [hashOut, resetStep_acc, zext64_toNat, basis_toNat]

/-! ### The output ports (R19, R23, R35) -/

theorem statusOut_toNat (s : State) : (statusOut s).toNat =
    (if s.status.busy then 1 else 0) + (if s.status.ill then 2 else 0) +
      (match s.status.mode with | .sized => 0 | .terminated => 4) := by
  unfold statusOut
  cases s.status.mode <;> cases s.status.ill <;> cases s.status.busy <;> rfl

theorem cfgBits_toNat (cf : Cfg) : (cfgBits cf).toNat =
    (match cf.w with | .w32 => 0 | .w64 => 1) + (match cf.cu with | .cu8 => 0 | .cu16 => 2 | .cu32 => 4) +
      (match cf.xf with | .identity => 0 | .asciiToLower => 8 | .asciiToUpper => 16 | .user => 24) := by
  obtain ⟨w, cu, xf⟩ := cf
  cases w <;> cases cu <;> cases xf <;> rfl

/-- Settles O54: STATUS and CFG are tables of their fields, and the other outputs are the registers. -/
theorem outputsShowTheRegisters : Obligations.OutputsShowTheRegisters :=
  fun s => ⟨statusOut_toNat s, cfgBits_toNat s.cfg, rfl, rfl, rfl, by simp [cmdReady]⟩

/-! ### The commands (R84, R85, R94, R97, R100, R101) -/

theorem beginComputation_acc_toNat (cf : Cfg) (s : State) : (beginComputation cf s).acc.toNat = natBasis cf.w := by
  rw [beginComputation_acc, zext64_toNat, basis_toNat]

/-- Settles O22: NOP's word is 0, and it is the one legal word with OP = 0 (R70). -/
theorem nopChangesNothing : Obligations.NopChangesNothing := by
  refine ⟨exec_nop, fun s opa opb cs hr hb hp => ?port, fun user c hop hne => ?illegal⟩
  case port =>
    have hword : (encode .nop).cmd = 0 := show cmdWord 0 0 = 0 by decide
    exact step_of_decode hr hb hp (decodeWith_of_encode rfl hword trivial)
  case illegal =>
    refine decodeWith_of_not_legal fun hl => hne ?_
    obtain ⟨hnop, -⟩ := tableRowsMatchDecode user c
    rw [← and_fullMask c.cmd]
    exact hnop.mp (decodeWith_plain_of_legal hl hop rfl)

/-- Settles O23: INIT is `beginComputation`. -/
theorem initLatchesAndLoadsBasis : Obligations.InitLatchesAndLoadsBasis :=
  fun cf s => ⟨_, exec_init cf s, beginComputation_acc_toNat cf s, rfl⟩

/-- Settles O26: SCANN is `startScan` in sized mode. -/
theorem scannStartsSizedScan : Obligations.ScannStartsSizedScan :=
  fun start len s => ⟨_, exec_scann start len s, rfl, rfl, rfl, rfl, rfl, rfl, rfl, rfl, rfl, rfl⟩

/-- Settles O27: SCANZ is `startScan` in terminated mode, with REM = 0. -/
theorem scanzStartsTerminatedScan : Obligations.ScanzStartsTerminatedScan :=
  fun start s => ⟨_, exec_scanz start s, rfl, rfl, rfl, rfl, rfl, rfl, rfl, rfl, rfl, rfl⟩

/-- Settles O28: HASHN is `startScan` after `beginComputation`. -/
theorem hashnIsInitThenScann : Obligations.HashnIsInitThenScann := fun cf start len s =>
  ⟨_, exec_hashn cf start len s, rfl, rfl, beginComputation_acc_toNat cf s, rfl, rfl, rfl, rfl, rfl, rfl, rfl, rfl⟩

/-- Settles O29: HASHZ is `startScan` after `beginComputation`. -/
theorem hashzIsInitThenScanz : Obligations.HashzIsInitThenScanz := fun cf start s =>
  ⟨_, exec_hashz cf start s, rfl, rfl, beginComputation_acc_toNat cf s, rfl, rfl, rfl, rfl, rfl, rfl, rfl, rfl⟩

/-! ### ACC and CFG after a command (R88, R92) -/

/-- ACC after a command, from ACC and CFG before it. -/
def accAfter (cf : Cfg) (acc : Word) : Instr → Word
  | .nop | .scann _ _ | .scanz _ => acc
  | .init g | .hashn g _ _ | .hashz g _ => zext64 (basis g.w)
  | .mixb b => zext64 (mix cf.w (accAt cf.w acc) (byteOperand b))
  | .unit u => feedAcc cf acc (unitOperand cf.cu u)

/-- CFG after a command, from CFG before it. -/
def cfgAfter (cf : Cfg) : Instr → Cfg
  | .nop | .mixb _ | .unit _ | .scann _ _ | .scanz _ => cf
  | .init g | .hashn g _ _ | .hashz g _ => g

theorem exec_acc_cfg {i : Instr} {s t : State} (h : exec i s = .next t) :
    t.acc = accAfter s.cfg s.acc i ∧ t.cfg = cfgAfter s.cfg i := by
  cases i <;> cases h <;> exact ⟨rfl, rfl⟩

/-- Settles O32: ACC and CFG after a command are functions of ACC, CFG and the command. -/
theorem accDependsOnAccCfgAndCommand : Obligations.AccDependsOnAccCfgAndCommand := by
  intro i s s' t t' hacc hcfg h h'
  obtain ⟨ha, hc⟩ := exec_acc_cfg h
  obtain ⟨ha', hc'⟩ := exec_acc_cfg h'
  rw [ha, hc, ha', hc', hacc, hcfg]
  exact ⟨rfl, rfl⟩

/-- A command that changes CFG latches the configuration it carries and loads its basis. -/
theorem exec_cfg_changed {i : Instr} {s t : State} (h : exec i s = .next t) (hne : t.cfg ≠ s.cfg) :
    t.acc.toNat = natBasis t.cfg.w ∧
      (i = .init t.cfg ∨ (∃ a n, i = .hashn t.cfg a n) ∨ ∃ a, i = .hashz t.cfg a) := by
  obtain ⟨hacc, hcfg⟩ := exec_acc_cfg h
  rw [hcfg] at hne
  rw [hacc, hcfg]
  cases i with
  | nop | mixb _ | unit _ | scann _ _ | scanz _ => exact absurd rfl hne
  | init g | hashn g _ _ | hashz g _ => simp [accAfter, cfgAfter, zext64_toNat, basis_toNat]

/-- Settles O52: of the ways a step goes, only reset and a command write CFG. -/
theorem cfgIsWrittenOnlyWithBasis : Obligations.CfgIsWrittenOnlyWithBasis := by
  intro s t h hne
  obtain ⟨hr, rfl⟩ | ⟨-, -, hscan⟩ | ⟨-, -, -, rfl⟩ | ⟨c, cs, r, -, -, -, -, rfl⟩ | ⟨c, cs, i, -, hb, hp, hd, he⟩ :=
    step_cases h
  case inl =>
    refine ⟨?_, .inl hr⟩
    rw [resetStep_acc, zext64_toNat, basis_toNat, resetStep_cfg]
  case inr.inl =>
    obtain ⟨-, -, -, hcfg, -⟩ := scanStep_frame hscan
    exact absurd hcfg hne
  case inr.inr.inl => exact absurd rfl hne
  case inr.inr.inr.inl => exact absurd rfl hne
  case inr.inr.inr.inr =>
    obtain ⟨hacc, hi⟩ := exec_cfg_changed he hne
    exact ⟨hacc, .inr ⟨hb, c, cs, i, hp, hd, hi⟩⟩

end Sys2Proof.Machine

/-!
Scan steps (R93, R95, R99): the step each read gives, racing reads (R49), and the stuck state (R105, R111).
-/

namespace Sys2Proof.Machine

/-! ### One scan step, by what it reads -/

theorem sizedStep_of_rem_eq_zero {s : State} (hz : s.rem = 0) : sizedStep s = .next (endScan s) := if_pos hz

theorem sizedStep_of_unit {s : State} {u : BitVec s.cfg.cu.bits} {d : Nat} (hz : s.rem ≠ 0)
    (hr : unitRead s s.cfg.cu s.ptr = some (u, d)) :
    sizedStep s = .next { mixRead s u with rem := s.rem - 1, draws := d } := by
  rw [sizedStep, if_neg hz, hr]

theorem sizedStep_of_no_unit {s : State} (hz : s.rem ≠ 0) (hr : unitRead s s.cfg.cu s.ptr = none) :
    sizedStep s = .fault .stuckUnadmittedRead := by
  rw [sizedStep, if_neg hz, hr]

theorem terminatedStep_of_no_unit {s : State} (hr : unitRead s s.cfg.cu s.ptr = none) :
    terminatedStep s = .fault .stuckUnadmittedRead := by
  rw [terminatedStep, hr]

theorem unitRead_of_admits_eq_false {s : State} {cu : CuWidth} {a : Word} (h : admits s.view cu a = false) :
    unitRead s cu a = none := by
  rw [unitRead_eq_none]
  simpa [admits] using h

/-- A scan step that has to read an unadmitted unit is the stuck fault (R105). -/
theorem scanStep_of_unadmitted {s : State} (hn : NeedsRead s) (ha : admits s.view s.cfg.cu s.ptr = false) :
    scanStep s = .fault .stuckUnadmittedRead := by
  have hread := unitRead_of_admits_eq_false ha
  cases hm : s.status.mode with
  | sized =>
    have hz : s.rem ≠ 0 := hn.resolve_left (by simp [hm])
    exact (scanStep_sized hm).trans (sizedStep_of_no_unit hz hread)
  | terminated => exact (scanStep_terminated hm).trans (terminatedStep_of_no_unit hread)

/-- A scan step whose read, if it needs one, is admitted has a next state. -/
theorem exists_scanStep {s : State} (ha : NeedsRead s → admits s.view s.cfg.cu s.ptr = true) :
    ∃ t, scanStep s = .next t := by
  have hread (hn : NeedsRead s) : ∃ u d, unitRead s s.cfg.cu s.ptr = some (u, d) := by
    cases hr : unitRead s s.cfg.cu s.ptr with
    | none =>
      have := ha hn
      simp [admits, unitRead_eq_none.mp hr] at this
    | some p => exact ⟨p.1, p.2, rfl⟩
  cases hm : s.status.mode with
  | sized =>
    rw [scanStep_sized hm]
    by_cases hz : s.rem = 0
    · exact ⟨_, sizedStep_of_rem_eq_zero hz⟩
    · obtain ⟨u, d, hr⟩ := hread (.inr hz)
      exact ⟨_, sizedStep_of_unit hz hr⟩
  | terminated =>
    rw [scanStep_terminated hm]
    obtain ⟨u, d, hr⟩ := hread (.inl hm)
    by_cases hu : u = 0
    · subst hu
      exact ⟨_, terminatedStep_of_sentinel hr⟩
    · exact ⟨_, terminatedStep_of_unit hr hu⟩

/-! ### The stuck state (R105, R111) -/

theorem step_of_stuck {s : State} (hr : s.rst = false) (h : Stuck s) : step s = .fault .stuckUnadmittedRead := by
  obtain ⟨hb, hn, ha⟩ := h
  rw [step_scan hr hb, scanStep_of_unadmitted hn ha]

theorem exists_step_of_not_stuck {s : State} (h : s.rst = false → ¬ Stuck s) : ∃ t, step s = .next t := by
  cases hr : s.rst with
  | true => exact ⟨_, step_reset hr⟩
  | false =>
    cases hb : s.status.busy with
    | true =>
      rw [step_scan hr hb]
      refine exists_scanStep fun hn => ?_
      by_contra ha
      exact h hr ⟨hb, hn, Bool.eq_false_of_not_eq_true ha⟩
    | false =>
      cases hp : s.pending with
      | nil => exact ⟨_, step_idle hr hb hp⟩
      | cons c cs =>
        rw [step_command hr hb hp]
        cases hd : decode c with
        | illegal r => exact ⟨_, commandStep_illegal hd⟩
        | command i =>
          rw [commandStep_legal hd]
          exact exec_next i _

theorem step_assertReset (s : State) : step (assertReset s) = .next (resetStep s) := step_reset (assertReset_rst s)

theorem Stuck.not_ended {s : State} (h : Stuck s) : ¬ Ended s := by
  rintro ⟨hb, -⟩
  simp [h.1] at hb

/-- Settles O14: a step without reset is the stuck fault in the stuck state and has a next state in every other. -/
theorem stuckIsTheOnlyStop : Obligations.StuckIsTheOnlyStop := by
  refine ⟨fun s => ⟨?faults, fun ⟨hr, hs⟩ => ⟨_, step_of_stuck hr hs⟩⟩, fun s r h => ?refused, fun s hs => ?stuck⟩
  case faults =>
    rintro ⟨f, hf⟩
    by_contra hs
    obtain ⟨t, ht⟩ := exists_step_of_not_stuck fun hr hstuck => hs ⟨hr, hstuck⟩
    simp [ht] at hf
  case refused =>
    by_cases hs : s.rst = false ∧ Stuck s
    · simp [step_of_stuck hs.1 hs.2] at h
    · obtain ⟨t, ht⟩ := exists_step_of_not_stuck fun hr hstuck => hs ⟨hr, hstuck⟩
      simp [ht] at h
  case stuck =>
    exact ⟨by simp [cmdReady, hs.1], hs.not_ended, resetStep s, step_assertReset s, statusOut_resetStep s, rfl⟩

theorem Stuck.supplyView {s : State} (h : Stuck s) (iv : InputView) : Stuck (supplyView iv s) := by
  obtain ⟨hb, hn, ha⟩ := h
  refine ⟨hb, hn, ?_⟩
  simp [hb, ha]

theorem Stuck.agentWrite {s : State} (h : Stuck s) (cu : CuWidth) (a : Word) (v : BitVec cu.bits) :
    Stuck (agentWrite cu a v s) := by
  rw [Sys2Proof.Machine.agentWrite]
  split
  case isFalse => exact h
  case isTrue hadm =>
    obtain ⟨hb, hn, ha⟩ := h
    exact ⟨hb, hn, (admits_putUnit hadm v _ _).trans ha⟩

/-- No move within a computation leaves the stuck state. -/
theorem Stuck.moves {s t : State} (h : Stuck s) (hm : Moves s t) : Stuck t := by
  obtain ⟨hr, hs⟩ | ⟨c, rfl⟩ | ⟨iv, rfl⟩ | ⟨cu, a, v, rfl⟩ := hm
  · simp [step_of_stuck hr h] at hs
  · exact h
  · exact h.supplyView iv
  · exact h.agentWrite cu a v

theorem Stuck.runsOn {s t : State} (h : Stuck s) (hrun : RunsOn s t) : Stuck t := by
  induction hrun with
  | here s => exact h
  | move _ hm _ ih => exact ih (h.moves hm)

/-- Settles O57: no step is enabled, supplied views and writes keep the admission at PTR, and reset clears BUSY. -/
theorem onlyResetLeavesTheStuckState : Obligations.OnlyResetLeavesTheStuckState := by
  intro s hs
  refine ⟨fun hr => step_of_stuck hr hs, fun c => hs, hs.supplyView, hs.agentWrite,
    fun t hrun => ⟨hs.runsOn hrun, (hs.runsOn hrun).not_ended⟩, resetStep s, step_assertReset s, ?_, rfl⟩
  rintro ⟨hb, -⟩
  cases hb

/-! ### Stable and racing reads (R49, R95, R99) -/

theorem ptr_succ_toNat (p : Word) : (p + 1).toNat = (p.toNat + 1) % 2 ^ 64 := BitVec.toNat_add p 1

theorem rem_pred_toNat {r : Word} (hz : r ≠ 0) : (r - 1).toNat = r.toNat - 1 := by
  have hpos : r.toNat ≠ 0 := fun h => hz (BitVec.eq_of_toNat_eq h)
  exact BitVec.toNat_sub_of_le (by simp [BitVec.le_def]; omega)

/-- Settles O33: with REM = 0 the step is `endScan`; else the stable unit is read as it stands and takes no draw. -/
theorem sizedScanStep : Obligations.SizedScanStep := by
  intro s hrst hb hm
  have hstep : step s = sizedStep s := by rw [step_scan hrst hb, scanStep_sized hm]
  refine ⟨fun hz => ?ends, fun u hz hv hrace => ⟨{ mixRead s u with rem := s.rem - 1 }, ?feeds, ?acc, ?ptr, ?rem, rfl⟩⟩
  case ends => exact hstep.trans (sizedStep_of_rem_eq_zero hz)
  case feeds => rw [hstep, sizedStep_of_unit hz (unitRead_stable hv hrace)]; rfl
  case acc => exact feedAcc_toNat ..
  case ptr => exact ptr_succ_toNat s.ptr
  case rem => exact rem_pred_toNat hz

/-- Settles O35: a racing read takes the next draw, and each kind of scan then does with it what it does with a unit. -/
theorem racedReadIsADraw : Obligations.RacedReadIsADraw := by
  intro s v hrst hb hn hv hrace
  have hr : unitRead s s.cfg.cu s.ptr = some (Config.draw s.cfg.cu s.draws, s.draws + 1) := unitRead_racing hv hrace
  rw [step_scan hrst hb]
  cases hm : s.status.mode with
  | sized =>
    have hz : s.rem ≠ 0 := hn.resolve_left (by simp [hm])
    refine ⟨_, (scanStep_sized hm).trans (sizedStep_of_unit hz hr), rfl, ?_⟩
    rw [if_neg (by simp), if_pos rfl]
    exact ⟨feedAcc_toNat .., ptr_succ_toNat s.ptr, rem_pred_toNat hz, rfl⟩
  | terminated =>
    rw [scanStep_terminated hm]
    by_cases hu : Config.draw s.cfg.cu s.draws = 0
    · refine ⟨_, terminatedStep_of_sentinel (hu ▸ hr), rfl, ?_⟩
      rw [if_pos ⟨rfl, hu⟩]
      rfl
    · refine ⟨_, terminatedStep_of_unit hr hu, rfl, ?_⟩
      rw [if_neg fun h => hu h.2, if_neg (by simp)]
      exact ⟨feedAcc_toNat .., ptr_succ_toNat s.ptr, rfl, rfl⟩

/-! ### Writes and views from outside during a scan (R49, R131) -/

theorem agentWrite_of_admits {s : State} {cu : CuWidth} {a : Word} (h : admits s.view cu a = true)
    (v : BitVec cu.bits) : agentWrite cu a v s =
      { s with
        view := putUnit s.view cu a v
        racing := if mayStillRead s cu a then insertAddr a.toNat s.racing else s.racing } :=
  if_pos h

/-- Settles O36: the write is `putUnit`, and the address joins the marks when the scan may still read it. -/
theorem agentWriteMarksTheRacedUnit : Obligations.AgentWriteMarksTheRacedUnit := by
  intro s cu a v h
  rw [agentWrite_of_admits h]
  refine ⟨viewUnit_putUnit_same .., fun b hb => viewUnit_putUnit_otherAddress _ cu hb v,
    fun cu' b hcu => viewUnit_putUnit_otherWidth _ hcu a b v, fun n => ?marks, rfl⟩
  cases hread : mayStillRead s cu a with
  | false => simp
  | true => simp [mem_insertAddr, or_comm]

/-- Settles O58: outside a scan the view is replaced; in one it is revalued, and the marks are the listed addresses. -/
theorem admissionIsHeldDuringAScan : Obligations.AdmissionIsHeldDuringAScan := by
  intro s iv
  refine ⟨rfl, fun hb => by simp [hb], fun hb => ⟨fun cu a => by simp [hb], fun a ha => ?_⟩⟩
  rw [supplyView_racing, if_pos hb]
  exact mem_map_fst_of_lookupCell ha

end Sys2Proof.Machine

/-!
What a step does not read: the view outside its one read (R34, R48, R50), ILL (R25) and, without racing marks, the
number of the next draw (R121). The step commutes with a change of these three.
-/

namespace Sys2Proof.Machine

/-- The state with its view, its ILL bit and its draw number changed. -/
def relabel (g : InputView → InputView) (h : Bool → Bool) (k : Nat → Nat) (s : State) : State :=
  { s with view := g s.view, status := { s.status with ill := h s.status.ill }, draws := k s.draws }

section
variable {g : InputView → InputView} {h : Bool → Bool} {k : Nat → Nat} {s : State}

/-- The change is one the next read passes on: the same unit, and the draw number changed. -/
def PassesRead (g : InputView → InputView) (h : Bool → Bool) (k : Nat → Nat) (s : State) : Prop :=
  unitRead (relabel g h k s) s.cfg.cu s.ptr = (unitRead s s.cfg.cu s.ptr).map fun r => (r.1, k r.2)

/-- A change of the view elsewhere than at PTR, and of ILL. -/
theorem passesRead_of_viewUnit (hview : viewUnit (g s.view) s.cfg.cu s.ptr = viewUnit s.view s.cfg.cu s.ptr) :
    PassesRead g h id s := by
  cases hv : viewUnit s.view s.cfg.cu s.ptr <;> by_cases hm : s.ptr.toNat ∈ s.racing <;>
    simp [PassesRead, unitRead, relabel, hview, hv, hm]

/-- Without racing marks no read takes a draw. -/
theorem passesRead_of_racing_nil (hracing : s.racing = []) : PassesRead id h k s := by
  cases hv : viewUnit s.view s.cfg.cu s.ptr <;> simp [PassesRead, unitRead, relabel, hracing, hv]

theorem exec_relabel (i : Instr) : exec i (relabel g h k s) = mapNext (relabel g h k) (exec i s) := by
  cases i <;> rfl

theorem sizedStep_relabel (hread : PassesRead g h k s) :
    sizedStep (relabel g h k s) = mapNext (relabel g h k) (sizedStep s) := by
  by_cases hz : s.rem = 0
  · rw [sizedStep_of_rem_eq_zero hz]
    exact sizedStep_of_rem_eq_zero hz
  cases hr : unitRead s s.cfg.cu s.ptr with rw [PassesRead, hr] at hread
  | none =>
    rw [sizedStep_of_no_unit hz hr]
    exact sizedStep_of_no_unit hz hread
  | some r =>
    rw [sizedStep_of_unit hz hr]
    exact sizedStep_of_unit hz hread

theorem terminatedStep_relabel (hread : PassesRead g h k s) :
    terminatedStep (relabel g h k s) = mapNext (relabel g h k) (terminatedStep s) := by
  cases hr : unitRead s s.cfg.cu s.ptr with rw [PassesRead, hr] at hread
  | none =>
    rw [terminatedStep_of_no_unit hr]
    exact terminatedStep_of_no_unit hread
  | some r =>
    obtain ⟨u, d⟩ := r
    by_cases hu : u = 0
    · subst hu
      rw [terminatedStep_of_sentinel hr]
      exact terminatedStep_of_sentinel hread
    · rw [terminatedStep_of_unit hr hu]
      exact terminatedStep_of_unit hread hu

theorem scanStep_relabel (hread : PassesRead g h k s) :
    scanStep (relabel g h k s) = mapNext (relabel g h k) (scanStep s) := by
  cases hm : s.status.mode with
  | sized =>
    rw [scanStep_sized hm, ← sizedStep_relabel hread]
    exact scanStep_sized hm
  | terminated =>
    rw [scanStep_terminated hm, ← terminatedStep_relabel hread]
    exact scanStep_terminated hm

/-- The step commutes with a change of view, ILL and draw number that keeps the ILL values a reset and an illegal
command write and that the read of a scan step passes on. -/
theorem step_relabel (hreset : s.rst = true → relabel g h k (resetStep s) = resetStep (relabel g h k s))
    (hscan : s.rst = false → s.status.busy = true → PassesRead g h k s) (hill : h true = true) :
    step (relabel g h k s) = mapNext (relabel g h k) (step s) := by
  cases hr : s.rst with
  | true =>
    rw [step_reset hr, mapNext, hreset hr]
    exact step_reset hr
  | false =>
    cases hb : s.status.busy with
    | true =>
      rw [step_scan hr hb, ← scanStep_relabel (hscan hr hb)]
      exact step_scan hr hb
    | false =>
      cases hp : s.pending with
      | nil =>
        rw [step_idle hr hb hp]
        exact step_idle hr hb hp
      | cons c cs =>
        rw [step_command hr hb hp]
        refine (step_command (s := relabel g h k s) hr hb hp).trans ?_
        cases hd : decode c with
        | illegal r =>
          rw [commandStep_illegal hd, commandStep_illegal hd]
          simp only [mapNext, relabel, raiseIllegal_status, hill]
          rfl
        | command i =>
          rw [commandStep_legal hd, commandStep_legal hd, ← exec_relabel]
          rfl

end

/-! ### The input view (R34, R48, R50) -/

/-- Settles O37: a reset step and the acceptance of a command pass a change of the view on. -/
theorem noReadOutsideAScan : Obligations.NoReadOutsideAScan := by
  intro s iv hquiet
  refine step_relabel (g := fun _ => iv) (h := id) (k := id) (fun _ => rfl) (fun hr hb => ?_) rfl
  simp [hr, hb] at hquiet

/-- Settles O38: the one read of a scan step is at PTR, in the scan's width. -/
theorem scanStepReadsOnlyTheUnitAtPtr : Obligations.ScanStepReadsOnlyTheUnitAtPtr := by
  intro s iv _ hview
  refine step_relabel (g := fun _ => iv) (h := id) (k := id) (fun _ => rfl)
    (fun _ _ => passesRead_of_viewUnit hview) rfl

/-! ### ILL (R25, R109) -/

theorem legal_of_decode {c : Command} {i : Instr} (hd : decode c = .command i) :
    Legal Config.hasXfUser c.cmd.toNat :=
  decodeWith_command_iff_legal.mp ⟨i, hd⟩

theorem not_legal_of_decode {c : Command} {r : IllegalReason} (hd : decode c = .illegal r) :
    ¬ Legal Config.hasXfUser c.cmd.toNat := by
  rw [← decodeWith_command_iff_legal]
  rintro ⟨i, hi⟩
  cases hd.symm.trans hi

/-- ILL after a step without reset: it stays set, and an accepted illegal command sets it. -/
theorem step_ill_eq_true_iff {s t : State} (h : step s = .next t) (hr : s.rst = false) :
    t.status.ill = true ↔ s.status.ill = true ∨
      (s.status.busy = false ∧ ∃ c cs, s.pending = c :: cs ∧ ¬ Legal Config.hasXfUser c.cmd.toNat) := by
  obtain ⟨hr', -⟩ | ⟨-, hb, hscan⟩ | ⟨-, hb, hp, rfl⟩ | ⟨_, _, _, -, hb, hp, hd, rfl⟩ |
    ⟨_, _, _, -, hb, hp, hd, he⟩ := step_cases h
  case inl => simp [hr] at hr'
  case inr.inl =>
    obtain ⟨-, -, -, -, hill, -⟩ := scanStep_frame hscan
    simp [hill, hb]
  case inr.inr.inl => simp [hp]
  case inr.inr.inr.inl => simp [hb, hp, not_legal_of_decode hd]
  case inr.inr.inr.inr =>
    obtain ⟨-, -, -, -, hill⟩ := exec_frame he
    simp [hill, hp, legal_of_decode hd]

/-- Settles O51: reset clears ILL, `step_ill_eq_true_iff` says what becomes of it otherwise, and the step commutes with
setting it. -/
theorem illIsStickyUntilReset : Obligations.IllIsStickyUntilReset := by
  refine ⟨fun s t h => ⟨fun hr => ?cleared, fun hr hill => ?kept, fun hill => ?set⟩, fun s hr => ?unread⟩
  case cleared =>
    rw [step_reset hr] at h
    cases h
    rfl
  case kept => exact (step_ill_eq_true_iff h hr).mpr (.inl hill)
  case set =>
    cases hr : s.rst with
    | true =>
      rw [step_reset hr] at h
      cases h
      simp
    | false => simpa [hill] using step_ill_eq_true_iff h hr
  case unread =>
    refine step_relabel (g := id) (h := fun _ => true) (k := id) (fun hr' => ?_)
      (fun _ _ => passesRead_of_viewUnit rfl) rfl
    simp [hr] at hr'

/-! ### Instances (R10, R121) -/

theorem platformStep_of_next {k : Nat} {p : Platform} {s t : State} (hs : p.instances[k]? = some s)
    (ht : step (withDraws p.draws s) = .next t) :
    platformStep k p = .next { instances := p.instances.set k t, draws := t.draws } := by
  rw [platformStep, hs]
  simp only [ht]

theorem step_withDraws {s : State} (n : Nat) (h : s.racing = []) :
    step (withDraws n s) = mapNext (withDraws n) (step s) :=
  step_relabel (g := id) (h := id) (k := fun _ => n) (fun _ => rfl) (fun _ _ => passesRead_of_racing_nil h) rfl

/-- Settles O55: a platform step sets one place of the list of instances. -/
theorem instancesShareNoState : Obligations.InstancesShareNoState := by
  refine ⟨⟨?some, fun s hs => List.eq_of_mem_replicate hs⟩, fun k p s t hs ht => ?own, fun n s => step_withDraws n⟩
  case some => simp [platformReset, Config.nInst]
  case own =>
    have hk : k < p.instances.length := (List.getElem?_eq_some_iff.mp hs).1
    refine ⟨_, platformStep_of_next hs ht, rfl, List.length_set .., ?_, fun j hj => ?_⟩
    · exact List.getElem?_set_self hk
    · exact List.getElem?_set_ne hj.symm

end Sys2Proof.Machine

/-!
The laws of the Byte Mixer and the Hash Engine (R74, R75, R77 to R80, R89): the inverse of mix, its zeros and fixed
points, the effect of one changed unit, and UNIT as a row of MIXBs.
-/

namespace Sys2Proof.Machine

/-! ### Transforms (R77 to R80) -/

/-- Settles O16: the transforms are the integer ones (`transform_toNat`), whose values are those of cuw-bit units. -/
theorem transformIsIntegerTransform : Obligations.TransformIsIntegerTransform := by
  intro x cu v
  refine ⟨transform_toNat x cu v, ?_⟩
  rw [← transform_toNat]
  exact (transform x cu v).isLt

/-! ### The inverse of mix (R75) -/

/-- PRIME(W)^-1 modulo 2^W. -/
def primeInv : (w : Width) → BitVec w.bits
  | .w32 => 0x359C449B#32
  | .w64 => 0xCE965057AFF6957B#64

theorem prime_mul_primeInv (w : Width) : prime w * primeInv w = 1#w.bits := by
  cases w <;> decide

/-- The inverse R75 gives: (t * PRIME(W)^-1) XOR b. -/
def unmix (w : Width) (t : BitVec w.bits) (b : Byte) : BitVec w.bits := (t * primeInv w) ^^^ b.setWidth w.bits

theorem unmix_mix (w : Width) (s : BitVec w.bits) (b : Byte) : unmix w (mix w s b) b = s := by
  rw [unmix, mix, BitVec.mul_assoc, prime_mul_primeInv, BitVec.mul_one, BitVec.xor_assoc, BitVec.xor_self,
    BitVec.xor_zero]

theorem mix_unmix (w : Width) (t : BitVec w.bits) (b : Byte) : mix w (unmix w t b) b = t := by
  rw [mix, unmix, BitVec.xor_assoc, BitVec.xor_self, BitVec.xor_zero, BitVec.mul_assoc, BitVec.mul_comm (primeInv w),
    prime_mul_primeInv, BitVec.mul_one]

theorem mix_injective (w : Width) (b : Byte) : Function.Injective fun s => mix w s b :=
  Function.LeftInverse.injective (g := fun t => unmix w t b) fun s => unmix_mix w s b

/-- Settles O19: `unmix` is the inverse on both sides. -/
theorem mixIsABijection : Obligations.MixIsABijection :=
  ⟨fun w b => ⟨mix_injective w b, fun t => ⟨unmix w t b, mix_unmix w t b⟩⟩, unmix_mix .w32, unmix_mix .w64⟩

/-- Equal results come from states that differ as the bytes do. -/
theorem xor_eq_of_mix_eq {w : Width} {s t : BitVec w.bits} {b c : Byte} (h : mix w s b = mix w t c) :
    s ^^^ b.setWidth w.bits = t ^^^ c.setWidth w.bits := by
  have := congrArg (· * primeInv w) h
  simpa only [mix, BitVec.mul_assoc, prime_mul_primeInv, BitVec.mul_one] using this

/-! ### Zeros and fixed points of mix (R71, R74) -/

theorem mix_eq_zero_iff (w : Width) (s : BitVec w.bits) (b : Byte) : mix w s b = 0 ↔ s = b.setWidth w.bits := by
  have hzero : mix w (b.setWidth w.bits) b = 0 := by rw [mix, BitVec.xor_self, BitVec.zero_mul]; rfl
  refine ⟨fun h => mix_injective w b (h.trans hzero.symm), fun h => ?_⟩
  rw [h, hzero]

/-- Multiplying by 2q + 1 modulo 2m leaves 0 and m alone, if q and m have no common factor. -/
theorem mul_mod_eq_self_iff {m q n : Nat} (hq : Nat.Coprime m q) (hn : n < 2 * m) :
    n * (2 * q + 1) % (2 * m) = n ↔ n = 0 ∨ n = m := by
  have hdvd : n * (2 * q + 1) % (2 * m) = n ↔ m ∣ n := by
    calc n * (2 * q + 1) % (2 * m) = n
      _ ↔ n ≡ n * (2 * q + 1) [MOD 2 * m] := by rw [Nat.ModEq, Nat.mod_eq_of_lt hn, eq_comm]
      _ ↔ 2 * m ∣ 2 * (n * q) := by
        rw [Nat.modEq_iff_dvd' (Nat.le_mul_of_pos_right n (by omega)),
          show n * (2 * q + 1) - n = 2 * (n * q) by rw [Nat.mul_add, Nat.mul_one, Nat.add_sub_cancel]; ac_rfl]
      _ ↔ m ∣ n * q := Nat.mul_dvd_mul_iff_left (by decide)
      _ ↔ m ∣ n := ⟨hq.dvd_of_dvd_mul_right, fun h => h.mul_right q⟩
  rw [hdvd]
  constructor
  · rintro ⟨k, rfl⟩
    have hk : k < 2 := Nat.lt_of_mul_lt_mul_left (a := m) (by omega)
    match k with
    | 0 => exact .inl rfl
    | 1 => exact .inr (Nat.mul_one m)
  · rintro (rfl | rfl)
    · exact Nat.dvd_zero m
    · exact Nat.dvd_refl n

/-- PRIME(W) - 1 is twice an odd number. -/
theorem mul_prime_eq_self_iff (w : Width) {n : Nat} (hn : n < 2 ^ w.bits) :
    n * natPrime w % 2 ^ w.bits = n ↔ n = 0 ∨ n = 2 ^ (w.bits - 1) := by
  have hprime : natPrime w = 2 * (natPrime w / 2) + 1 := by cases w <;> rfl
  have hodd : Nat.Coprime 2 (natPrime w / 2) := by cases w <;> decide
  have hpow : 2 ^ w.bits = 2 * 2 ^ (w.bits - 1) := by cases w <;> rfl
  rw [hpow] at hn
  rw [hprime, hpow]
  exact mul_mod_eq_self_iff (hodd.pow_left _) hn

theorem mix_zero_eq_self_iff (w : Width) (s : BitVec w.bits) : mix w s 0 = s ↔ s = 0 ∨ s.toNat = 2 ^ (w.bits - 1) := by
  have h := mul_prime_eq_self_iff w s.isLt
  rw [← BitVec.toNat_inj, mix_toNat, natMix, ← BitVec.toNat_inj]
  simpa using h

/-- Settles O21: mix is injective and takes the zero-extended byte to 0; a zero byte leaves the multiples of 2^(W-1). -/
theorem zeroesAndFixedPointsOfMix : Obligations.ZeroesAndFixedPointsOfMix :=
  fun w s => ⟨mix_eq_zero_iff w s, mix_zero_eq_self_iff w s⟩

/-! ### One changed unit (R75) -/

theorem mix_byte_injective {w : Width} {s : BitVec w.bits} {b c : Byte} (h : mix w s b = mix w s c) : b = c := by
  have hx := xor_eq_of_mix_eq h
  rw [BitVec.xor_right_inj, ← BitVec.toNat_inj, byte_setWidth_toNat, byte_setWidth_toNat] at hx
  exact BitVec.eq_of_toNat_eq hx

/-- A byte changes the low 8 bits of a state alone. -/
theorem xor_byte_div (w : Width) (s : BitVec w.bits) (b : Byte) :
    (s ^^^ b.setWidth w.bits).toNat / 256 = s.toNat / 256 := by
  have hb : b.toNat / 256 = 0 := Nat.div_eq_of_lt b.isLt
  rw [BitVec.toNat_xor, byte_setWidth_toNat, ← Nat.shiftRight_eq_div_pow _ 8, Nat.shiftRight_xor_distrib,
    Nat.shiftRight_eq_div_pow, Nat.shiftRight_eq_div_pow, hb, Nat.xor_zero]

/-- A difference below 2^8, times A + r with r small against A, is not small modulo A * B again unless it is 0. -/
theorem eq_zero_of_dvd_mul_sub {A B r δ ε : ℤ} (hA : 2 ^ 24 ≤ A) (hB : 256 ≤ B) (hr : |r| < 512) (hδ : |δ| < 256)
    (hε : |ε| < 256) (h : A * B ∣ δ * (A + r) - ε) : δ = 0 := by
  have hsplit : δ * (A + r) - ε = A * δ + (δ * r - ε) := by ring
  have hsmall : |δ * r - ε| < A := by
    calc |δ * r - ε|
      _ ≤ |δ| * |r| + |ε| := by rw [← abs_mul]; exact abs_sub _ _
      _ ≤ 256 * 512 + 256 := by gcongr
      _ < A := by omega
  have hrest : δ * r - ε = 0 :=
    Int.eq_zero_of_abs_lt_dvd
      ((Int.dvd_add_right (Int.dvd_mul_right A δ)).mp (hsplit ▸ (Int.dvd_mul_right A B).trans h)) hsmall
  rw [hsplit, hrest, Int.add_zero] at h
  exact Int.eq_zero_of_abs_lt_dvd (Int.dvd_of_mul_dvd_mul_left (by omega) h) (by omega)

/-- PRIME(W) is a power of 2 that divides 2^W, and a small number. -/
theorem natPrime_split (w : Width) : ∃ A B r : ℤ, (natPrime w : ℤ) = A + r ∧ ((2 ^ w.bits : ℕ) : ℤ) = A * B ∧
    2 ^ 24 ≤ A ∧ 256 ≤ B ∧ |r| < 512 := by
  cases w
  · exact ⟨2 ^ 24, 2 ^ 8, 0x193, by decide, by decide, by decide, by decide, by decide⟩
  · exact ⟨2 ^ 40, 2 ^ 24, 0x1B3, by decide, by decide, by decide, by decide, by decide⟩

/-- Two factors with the same bits above the low 8 give products with different bits there, or are the same. -/
theorem eq_of_mul_prime_div_eq {w : Width} {p q : Nat} (hpq : p / 256 = q / 256)
    (h : p * natPrime w % 2 ^ w.bits / 256 = q * natPrime w % 2 ^ w.bits / 256) : p = q := by
  obtain ⟨A, B, r, hprime, hpow, hA, hB, hr⟩ := natPrime_split w
  generalize hM : 2 ^ w.bits = M at *
  have hδ : |(p : ℤ) - q| < 256 := by rw [abs_lt]; omega
  have hε : |((p * natPrime w % M : ℕ) : ℤ) - (q * natPrime w % M : ℕ)| < 256 := by rw [abs_lt]; omega
  have hmod (n : ℕ) : (M : ℤ) ∣ n - (n % M : ℕ) := by rw [Int.natCast_mod]; exact Int.dvd_self_sub_emod
  have hdvd : A * B ∣ ((p : ℤ) - q) * (A + r) - (((p * natPrime w % M : ℕ) : ℤ) - (q * natPrime w % M : ℕ)) := by
    have hsub := Int.dvd_sub (hmod (p * natPrime w)) (hmod (q * natPrime w))
    rw [← hpow, ← hprime]
    convert hsub using 1
    push_cast
    ring
  have := eq_zero_of_dvd_mul_sub hA hB hr hδ hε hdvd
  omega

/-- Two bytes mixed in order: each of them shows in the result. -/
theorem mix_mix_byte_injective {w : Width} {s : BitVec w.bits} {b b' c c' : Byte}
    (h : mix w (mix w s b) b' = mix w (mix w s c) c') : b = c ∧ b' = c' := by
  have hhigh : (mix w s b).toNat / 256 = (mix w s c).toNat / 256 := by
    rw [← xor_byte_div w (mix w s b) b', xor_eq_of_mix_eq h, xor_byte_div]
  have hbc : b = c := by
    rw [mix, mix, BitVec.toNat_mul, BitVec.toNat_mul, prime_toNat] at hhigh
    have hx := eq_of_mul_prime_div_eq ((xor_byte_div w s b).trans (xor_byte_div w s c).symm) hhigh
    exact mix_byte_injective (s := s) (by rw [mix, mix, BitVec.eq_of_toNat_eq hx])
  subst hbc
  exact ⟨rfl, mix_byte_injective h⟩

/-- A unit is its bytes (R81). -/
theorem unitBytes_injective (cu : CuWidth) : Function.Injective (unitBytes cu) := by
  intro u v h
  have hbytes : natBytes cu u.toNat = natBytes cu v.toNat := by rw [← unitBytes_toNat, h, unitBytes_toNat]
  have hmask (n : Nat) : n &&& 0xFF = n % 256 := Nat.and_two_pow_sub_one_eq_mod n 8
  have hu := u.isLt
  have hv := v.isLt
  apply BitVec.eq_of_toNat_eq
  cases cu <;> simp only [natBytes, hmask, Nat.shiftRight_eq_div_pow, List.cons.injEq, CuWidth.bits] at * <;> omega

/-- Feeding an 8-bit or a 16-bit unit shows the transformed unit. -/
theorem transform_eq_of_feed_eq {w : Width} {cu : CuWidth} {x : Xform} {s : BitVec w.bits} {u v : BitVec cu.bits}
    (hcu : cu ≠ .cu32) (h : feed w cu x s u = feed w cu x s v) : transform x cu u = transform x cu v := by
  rw [feed, feed] at h
  refine unitBytes_injective cu ?_
  match cu with
  | .cu8 => exact congrArg (fun b => [b]) (mix_byte_injective h)
  | .cu16 =>
    obtain ⟨hlow, hhigh⟩ := mix_mix_byte_injective h
    exact congrArg₂ (fun b b' => [b, b']) hlow hhigh

theorem foldl_injective {α β : Type} {f : α → β → α} (hf : ∀ b, Function.Injective fun a => f a b) (l : List β) :
    Function.Injective fun a => l.foldl f a := by
  induction l with
  | nil => exact Function.injective_id
  | cons b rest ih => exact ih.comp (hf b)

theorem feed_injective (w : Width) (cu : CuWidth) (x : Xform) (u : BitVec cu.bits) :
    Function.Injective fun s => feed w cu x s u :=
  foldl_injective (mix_injective w) _

/-- Settles O20: feeding either unit gives different states, and what is fed before and after is the same and
injective. -/
theorem oneUnitChangesTheHash : Obligations.OneUnitChangesTheHash := by
  intro w cu x before after u v hcu hne h
  rw [hashUnits, hashUnits, List.foldl_append, List.foldl_append, List.foldl_cons, List.foldl_cons] at h
  exact hne (transform_eq_of_feed_eq hcu (foldl_injective (feed_injective w cu x) after h))

/-! ### UNIT as MIXBs (R89) -/

theorem byteOperand_setWidth (b : Byte) : byteOperand (b.setWidth 64) = b := by
  simp [byteOperand]

/-- MIXBs from an extended state are the fold of mix. -/
theorem execAll_mixb (bytes : List Byte) (s : State) (v : BitVec s.cfg.w.bits) :
    execAll (bytes.map fun b => .mixb (b.setWidth 64)) { s with acc := zext64 v } =
      .next { s with acc := zext64 (bytes.foldl (mix s.cfg.w) v) } := by
  induction bytes generalizing v with
  | nil => rfl
  | cons b rest ih =>
    rw [List.map_cons, execAll, exec_mixb]
    simp only [accAt_zext64, byteOperand_setWidth]
    exact ih _

theorem unitBytes_ne_nil (cu : CuWidth) (v : BitVec cu.bits) : unitBytes cu v ≠ [] := by
  cases cu <;> exact List.cons_ne_nil _ _

/-- Settles O30: a unit has a first byte, whose MIXB extends ACC; the others go on from there. -/
theorem unitIsItsMixbs : Obligations.UnitIsItsMixbs := by
  intro opa s
  rw [exec_unit, feedAcc, feed]
  obtain ⟨b, rest, hbytes⟩ := List.exists_cons_of_ne_nil
    (unitBytes_ne_nil s.cfg.cu (transform s.cfg.xf s.cfg.cu (unitOperand s.cfg.cu opa)))
  rw [hbytes, List.map_cons, execAll, exec_mixb, byteOperand_setWidth]
  exact (execAll_mixb rest s _).symm

end Sys2Proof.Machine

/-!
Whole scans and computations (R14, R87, R95, R99 to R103, R106, R107, R137): a scan over stable units is the fold of
feed, and a row of operand commands on the port is the fold of mix.
-/

namespace Sys2Proof.Machine

/-! ### Runs -/

theorem runSteps_succ {k : Nat} {s t : State} (h : step s = .next t) : runSteps (k + 1) s = runSteps k t := by
  rw [runSteps, h]

theorem runSteps_add {j k : Nat} {s t : State} (h : runSteps j s = .next t) : runSteps (j + k) s = runSteps k t := by
  induction j generalizing s with
  | zero => cases h; rw [Nat.zero_add]
  | succ j ih =>
    cases hs : step s with
    | next u =>
      rw [runSteps_succ hs] at h
      rw [Nat.succ_add, runSteps_succ hs, ih h]
    | fault f => simp [runSteps, hs] at h
    | refused r => simp [runSteps, hs] at h

theorem runSteps_one {s t : State} (h : step s = .next t) : runSteps 1 s = .next t := runSteps_succ h

theorem execThenRun_of_next {i : Instr} {k : Nat} {s t : State} (h : exec i s = .next t) :
    execThenRun i k s = runSteps k t := by
  rw [execThenRun, h]

/-! ### Units and their fold -/

theorem UnitsAt.append_left {iv : InputView} {cu : CuWidth} {a : Word} {us vs : List (BitVec cu.bits)}
    (h : UnitsAt iv cu a (us ++ vs)) : UnitsAt iv cu a us := by
  intro n hn
  rw [h n (by rw [List.length_append]; omega), List.getElem_append_left hn]

theorem UnitsAt.viewUnit_last {iv : InputView} {cu : CuWidth} {a : Word} {us : List (BitVec cu.bits)}
    {v : BitVec cu.bits} (h : UnitsAt iv cu a (us ++ [v])) :
    viewUnit iv cu (a + BitVec.ofNat 64 us.length) = some v := by
  rw [h us.length (by simp), List.getElem_concat_length rfl]

theorem UnitsAt.take {iv : InputView} {cu : CuWidth} {a : Word} {us : List (BitVec cu.bits)}
    (h : UnitsAt iv cu a us) (n : Nat) : UnitsAt iv cu a (us.take n) := by
  rw [← List.take_append_drop n us] at h
  exact h.append_left

theorem foldl_feedAcc_zext64 (cf : Cfg) (us : List (BitVec cf.cu.bits)) (v : BitVec cf.w.bits) :
    us.foldl (feedAcc cf) (zext64 v) = zext64 (us.foldl (feed cf.w cf.cu cf.xf) v) := by
  induction us generalizing v with
  | nil => rfl
  | cons u rest ih => rw [List.foldl_cons, List.foldl_cons, feedAcc, accAt_zext64, ih]

theorem foldl_feedAcc_basis_toNat (cf : Cfg) (us : List (BitVec cf.cu.bits)) :
    (us.foldl (feedAcc cf) (zext64 (basis cf.w))).toNat = natHash cf.w cf.cu cf.xf (us.map BitVec.toNat) := by
  rw [foldl_feedAcc_zext64, zext64_toNat, ← hashUnits_toNat, hashUnits]

/-- Under the register invariant ACC is its low W bits, extended (R18). -/
theorem RegInv.zext64_accAt {s : State} (h : RegInv s) : zext64 (accAt s.cfg.w s.acc) = s.acc := by
  apply BitVec.eq_of_toNat_eq
  rw [zext64_toNat, accAt_toNat]
  apply Nat.mod_eq_of_lt
  cases hw : s.cfg.w with
  | w32 =>
    have hhigh := congrArg BitVec.toNat (h.accHigh hw)
    have hacc := s.acc.isLt
    rw [BitVec.extractLsb'_toNat, Nat.shiftRight_eq_div_pow] at hhigh
    simp at hhigh
    show s.acc.toNat < 2 ^ 32
    omega
  | w64 => exact s.acc.isLt

/-- The state after a scan has fed `us`: ACC and PTR have moved on. -/
def fedUnits (cf : Cfg) (us : List (BitVec cf.cu.bits)) (s : State) : State :=
  { s with acc := us.foldl (feedAcc cf) s.acc, ptr := s.ptr + BitVec.ofNat 64 us.length }

@[simp] theorem fedUnits_nil (cf : Cfg) (s : State) : fedUnits cf [] s = s := by
  simp [fedUnits]

theorem add_one_add_ofNat (a : Word) (n : Nat) : a + 1 + BitVec.ofNat 64 n = a + BitVec.ofNat 64 (n + 1) := by
  rw [BitVec.add_assoc, BitVec.ofNat_add, BitVec.add_comm (BitVec.ofNat 64 n)]
  rfl

theorem sub_one_sub_ofNat (a : Word) (n : Nat) : a - 1 - BitVec.ofNat 64 n = a - BitVec.ofNat 64 (n + 1) := by
  rw [BitVec.sub_sub, BitVec.ofNat_add, BitVec.add_comm (BitVec.ofNat 64 n)]
  rfl

theorem fedUnits_cons (s : State) (u : BitVec s.cfg.cu.bits) (us : List (BitVec s.cfg.cu.bits)) :
    fedUnits s.cfg us (mixRead s u) = fedUnits s.cfg (u :: us) s := by
  simp only [fedUnits, mixRead_ptr, add_one_add_ofNat, List.length_cons]
  rfl

/-! ### Scans over stable units (R95, R99) -/

/-- In the middle of a scan that nothing has raced with or resets. -/
structure StableScan (mode : ScanMode) (s : State) : Prop where
  rst : s.rst = false
  busy : s.status.busy = true
  mode : s.status.mode = mode
  racing : s.racing = []

theorem StableScan.startScan {s : State} (h : s.rst = false) (mode : ScanMode) (a n : Word) :
    StableScan mode (startScan mode a n s) :=
  ⟨h, rfl, rfl, rfl⟩

theorem StableScan.unitRead {mode : ScanMode} {s : State} (h : StableScan mode s) {u : BitVec s.cfg.cu.bits}
    (hv : viewUnit s.view s.cfg.cu s.ptr = some u) : unitRead s s.cfg.cu s.ptr = some (u, s.draws) :=
  unitRead_stable hv (by simp [h.racing])

theorem StableScan.step_sized {s : State} (h : StableScan .sized s) : step s = sizedStep s :=
  (step_scan h.rst h.busy).trans (scanStep_sized h.mode)

theorem StableScan.step_terminated {s : State} (h : StableScan .terminated s) : step s = terminatedStep s :=
  (step_scan h.rst h.busy).trans (scanStep_terminated h.mode)

/-- A sized scan feeds one unit a step, as long as REM lasts. -/
theorem runSteps_sized {cf : Cfg} {s : State} (hcfg : s.cfg = cf) (h : StableScan .sized s)
    {us : List (BitVec cf.cu.bits)} (hlen : us.length ≤ s.rem.toNat) (hus : UnitsAt s.view cf.cu s.ptr us) :
    runSteps us.length s = .next { fedUnits cf us s with rem := s.rem - BitVec.ofNat 64 us.length } := by
  induction us generalizing s with
  | nil => simp [runSteps]
  | cons u rest ih =>
    subst hcfg
    rw [List.length_cons] at hlen
    have hz : s.rem ≠ 0 := by rintro hz; simp [hz] at hlen
    have hstep : step s = .next { mixRead s u with rem := s.rem - 1 } :=
      h.step_sized.trans (sizedStep_of_unit hz (h.unitRead hus.head))
    have hlen' : rest.length ≤ (s.rem - 1).toNat := by rw [rem_pred_toNat hz]; omega
    rw [List.length_cons, runSteps_succ hstep,
      ih (s := { mixRead s u with rem := s.rem - 1 }) rfl ⟨h.rst, h.busy, h.mode, h.racing⟩ hlen' hus.tail,
      ← fedUnits_cons, sub_one_sub_ofNat]
    rfl

/-- A sized scan over all its units ends in the step after them (R102). -/
theorem runSteps_sized_end {cf : Cfg} {s : State} (hcfg : s.cfg = cf) (h : StableScan .sized s)
    {us : List (BitVec cf.cu.bits)} (hlen : us.length < 2 ^ 64) (hrem : s.rem = BitVec.ofNat 64 us.length)
    (hus : UnitsAt s.view cf.cu s.ptr us) :
    runSteps (us.length + 1) s = .next (endScan { fedUnits cf us s with rem := 0 }) := by
  have hle : us.length ≤ s.rem.toNat := by rw [hrem, BitVec.toNat_ofNat, Nat.mod_eq_of_lt hlen]
  rw [runSteps_add (runSteps_sized hcfg h hle hus), hrem, BitVec.sub_self]
  refine runSteps_one ?_
  have h' : StableScan .sized { fedUnits cf us s with rem := 0 } := ⟨h.rst, h.busy, h.mode, h.racing⟩
  exact h'.step_sized.trans (sizedStep_of_rem_eq_zero rfl)

/-- A terminated scan feeds one unit a step, as long as it meets no sentinel. -/
theorem runSteps_terminated {cf : Cfg} {s : State} (hcfg : s.cfg = cf) (h : StableScan .terminated s)
    {us : List (BitVec cf.cu.bits)} (hus : UnitsAt s.view cf.cu s.ptr us) (hne : ∀ u ∈ us, u ≠ 0) :
    runSteps us.length s = .next (fedUnits cf us s) := by
  induction us generalizing s with
  | nil => simp [runSteps]
  | cons u rest ih =>
    subst hcfg
    obtain ⟨hu, hrest⟩ := List.forall_mem_cons.mp hne
    have hstep : step s = .next (mixRead s u) :=
      h.step_terminated.trans (terminatedStep_of_unit (h.unitRead hus.head) hu)
    rw [List.length_cons, runSteps_succ hstep,
      ih (s := mixRead s u) rfl ⟨h.rst, h.busy, h.mode, h.racing⟩ hus.tail hrest, fedUnits_cons]

/-- The sentinel ends a terminated scan, and PTR stays at it (R99, R102). -/
theorem runSteps_terminated_end {cf : Cfg} {s : State} (hcfg : s.cfg = cf) (h : StableScan .terminated s)
    {us : List (BitVec cf.cu.bits)} (hus : UnitsAt s.view cf.cu s.ptr (us ++ [0])) (hne : ∀ u ∈ us, u ≠ 0) :
    runSteps (us.length + 1) s = .next (endScan (fedUnits cf us s)) := by
  rw [runSteps_add (runSteps_terminated hcfg h hus.append_left hne)]
  refine runSteps_one ?_
  have h' : StableScan .terminated (fedUnits cf us s) := ⟨h.rst, h.busy, h.mode, h.racing⟩
  subst hcfg
  exact h'.step_terminated.trans (terminatedStep_of_sentinel (h'.unitRead hus.viewUnit_last))

/-! ### The four scan-starting commands with their scans (R100 to R102) -/

theorem execThenRun_scann {cf : Cfg} {s : State} (hcfg : s.cfg = cf) (hr : s.rst = false) (start : Word)
    {us : List (BitVec cf.cu.bits)} (hlen : us.length < 2 ^ 64) (hus : UnitsAt s.view cf.cu start us) :
    execThenRun (.scann start (BitVec.ofNat 64 us.length)) (us.length + 1) s =
      .next (endScan (fedUnits cf us (startScan .sized start 0 s))) :=
  (execThenRun_of_next (exec_scann ..)).trans
    (runSteps_sized_end (s := startScan .sized start _ s) hcfg (.startScan hr ..) hlen rfl hus)

theorem execThenRun_scanz {cf : Cfg} {s : State} (hcfg : s.cfg = cf) (hr : s.rst = false) (start : Word)
    {us : List (BitVec cf.cu.bits)} (hus : UnitsAt s.view cf.cu start (us ++ [0])) (hne : ∀ u ∈ us, u ≠ 0) :
    execThenRun (.scanz start) (us.length + 1) s =
      .next (endScan (fedUnits cf us (startScan .terminated start 0 s))) :=
  (execThenRun_of_next (exec_scanz ..)).trans
    (runSteps_terminated_end (s := startScan .terminated start 0 s) hcfg (.startScan hr ..) hus hne)

/-- HASHN is INIT and then SCANN, with their scan. -/
theorem execThenRun_hashn {cf : Cfg} {s : State} (hr : s.rst = false) (start : Word) {us : List (BitVec cf.cu.bits)}
    (hlen : us.length < 2 ^ 64) (hus : UnitsAt s.view cf.cu start us) :
    execThenRun (.hashn cf start (BitVec.ofNat 64 us.length)) (us.length + 1) s =
      .next (endScan (fedUnits cf us (startScan .sized start 0 (beginComputation cf s)))) :=
  execThenRun_scann (s := beginComputation cf s) rfl hr start hlen hus

theorem execThenRun_hashz {cf : Cfg} {s : State} (hr : s.rst = false) (start : Word) {us : List (BitVec cf.cu.bits)}
    (hus : UnitsAt s.view cf.cu start (us ++ [0])) (hne : ∀ u ∈ us, u ≠ 0) :
    execThenRun (.hashz cf start) (us.length + 1) s =
      .next (endScan (fedUnits cf us (startScan .terminated start 0 (beginComputation cf s)))) :=
  execThenRun_scanz (s := beginComputation cf s) rfl hr start hus hne

/-- Settles O40: the scan folds feed from the basis HASHN loads. -/
theorem hashnEndsWithTheHash : Obligations.HashnEndsWithTheHash := fun _ cf start us hr hlen hus =>
  ⟨_, execThenRun_hashn hr start hlen hus, foldl_feedAcc_basis_toNat cf us, rfl, rfl, rfl, rfl, rfl, rfl⟩

/-- Settles O42: the scan folds feed from the basis HASHZ loads, up to the sentinel. -/
theorem hashzEndsWithTheHash : Obligations.HashzEndsWithTheHash := fun _ cf start us hr _ hus hne =>
  ⟨_, execThenRun_hashz hr start hus hne, foldl_feedAcc_basis_toNat cf us, rfl, rfl, rfl, rfl, rfl, rfl⟩

/-- Under the register invariant the fold from ACC is the fold of feed, extended. -/
theorem RegInv.foldl_feedAcc {s : State} (h : RegInv s) (us : List (BitVec s.cfg.cu.bits)) :
    us.foldl (feedAcc s.cfg) s.acc = zext64 (us.foldl (feed s.cfg.w s.cfg.cu s.cfg.xf) (accAt s.cfg.w s.acc)) := by
  rw [← foldl_feedAcc_zext64, h.zext64_accAt]

/-- Settles O41: the scan folds feed from the ACC it finds. -/
theorem scannContinuesTheFold : Obligations.ScannContinuesTheFold := fun _ start us hinv hr hlen hus =>
  ⟨_, execThenRun_scann rfl hr start hlen hus, hinv.foldl_feedAcc us, rfl, rfl, rfl, rfl⟩

/-- Settles O43: the scan folds feed from the ACC it finds, up to the sentinel. -/
theorem scanzContinuesTheFold : Obligations.ScanzContinuesTheFold := fun _ start us hinv hr _ hus hne =>
  ⟨_, execThenRun_scanz rfl hr start hus hne, hinv.foldl_feedAcc us, rfl, rfl, rfl, rfl⟩

/-- Settles O44: both scans fold the same units from the same basis. -/
theorem terminatedAndSizedScansAgree : Obligations.TerminatedAndSizedScansAgree :=
  fun _ _ start _ hr hlen hus hne =>
    ⟨_, _, execThenRun_hashz hr start hus hne, execThenRun_hashn hr start hlen hus.append_left, rfl, rfl, rfl⟩

/-- Settles O45: the second scan folds on from where the first ended, and a fold over `xs ++ ys` is the two folds. -/
theorem chainedScansHashTheConcatenation : Obligations.ChainedScansHashTheConcatenation := by
  intro s cf a b c xs ys hr hlen hxs hys hxys
  have hfirst := execThenRun_hashn hr a (by omega) hxs
  have hsecond := execThenRun_scann (cf := cf)
    (s := endScan (fedUnits cf xs (startScan .sized a 0 (beginComputation cf s)))) rfl hr b (by omega) hys
  have hwhole := execThenRun_hashn hr c (by rwa [List.length_append]) hxys
  rw [List.length_append] at hwhole
  exact ⟨_, _, _, hfirst, hsecond, hwhole, rfl, rfl, (List.foldl_append ..).symm⟩

/-- Settles O46: without a sentinel the scan feeds unit after unit. -/
theorem terminatedScanGoesOnWithoutSentinel : Obligations.TerminatedScanGoesOnWithoutSentinel :=
  fun _ _ hr hb hm hracing hus hne => ⟨_, runSteps_terminated rfl ⟨hr, hb, hm, hracing⟩ hus hne, hb, rfl, rfl⟩

end Sys2Proof.Machine

/-!
Computations fed through the command port (R14, R87, R129, R137): operand commands as the fold of mix over the byte
stream, and the end of a HASHN's computation.
-/

namespace Sys2Proof.Machine

/-- A well-formed command on the port is run by the next step (R33, R67). -/
theorem step_of_encode {s : State} {i : Instr} {cs : List Command} (hr : s.rst = false) (hb : s.status.busy = false)
    (hwf : i.wellFormed = true) (hp : s.pending = encode i :: cs) : step s = exec i { s with pending := cs } :=
  step_of_decode hr hb hp (decodeOfEncode i hwf)

/-! ### Operand commands on the port (R87) -/

theorem wellFormed_of_feedsOperand {i : Instr} (h : feedsOperand i = true) : i.wellFormed = true := by
  cases i with
  | nop | mixb _ | unit _ => rfl
  | init _ | scann _ _ | scanz _ | hashn _ _ _ | hashz _ _ => cases h

/-- An operand command mixes the bytes it adds to the stream into an extended ACC. -/
theorem exec_of_feedsOperand {i : Instr} (h : feedsOperand i = true) (s : State) (v : BitVec s.cfg.w.bits) :
    exec i { s with acc := zext64 v } =
      .next { s with acc := zext64 ((streamBytes s.cfg i).foldl (mix s.cfg.w) v) } := by
  cases i with
  | nop => rfl
  | mixb b => simp [streamBytes]
  | unit u => simp [streamBytes, feedAcc, feed]
  | init _ | scann _ _ | scanz _ | hashn _ _ _ | hashz _ _ => cases h

theorem runSteps_feedsOperand {s : State} (hr : s.rst = false) (hb : s.status.busy = false) (rest : List Command)
    {is : List Instr} (his : ∀ i ∈ is, feedsOperand i = true) (v : BitVec s.cfg.w.bits) :
    runSteps is.length { s with acc := zext64 v, pending := is.map encode ++ rest } =
      .next { s with acc := zext64 ((is.flatMap (streamBytes s.cfg)).foldl (mix s.cfg.w) v), pending := rest } := by
  induction is generalizing v with
  | nil => rfl
  | cons i is ih =>
    obtain ⟨hi, his⟩ := List.forall_mem_cons.mp his
    have hstep := (step_of_encode (s := { s with acc := zext64 v, pending := (i :: is).map encode ++ rest }) hr hb
      (wellFormed_of_feedsOperand hi) rfl).trans (exec_of_feedsOperand hi { s with pending := is.map encode ++ rest } v)
    rw [List.length_cons, runSteps_succ hstep, ih his, List.flatMap_cons, List.foldl_append]

/-- Settles O47: INIT loads the extended basis, and each operand command mixes its bytes on from there. -/
theorem portComputationIsTheByteFold : Obligations.PortComputationIsTheByteFold := by
  intro s cf is rest hr hb hwf his hp
  have hstep := (step_of_encode hr hb hwf hp).trans (exec_init cf _)
  have hfeeds := runSteps_feedsOperand (s := { s with cfg := cf }) hr hb rest his (basis cf.w)
  exact ⟨_, (runSteps_succ hstep).trans hfeeds, rfl, rfl⟩

/-! ### The end of a HASHN's computation (R14, R137) -/

/-- A run of steps, none of them a reset or after the end, is a run within a computation. -/
theorem runsOn_of_runSteps {k : Nat} {s t : State} (h : runSteps k s = .next t)
    (hgoes : ∀ j < k, ∃ u, runSteps j s = .next u ∧ u.rst = false ∧ ¬ Ended u) : RunsOn s t := by
  induction k generalizing s with
  | zero => cases h; exact .here _
  | succ k ih =>
    obtain ⟨_, ⟨⟩, hr, hended⟩ := hgoes 0 (Nat.succ_pos k)
    cases hs : step s with
    | next u =>
      rw [runSteps_succ hs] at h
      refine .move hended (.inl ⟨hr, hs⟩) (ih h fun j hj => ?_)
      have := hgoes (j + 1) (Nat.succ_lt_succ hj)
      rwa [runSteps_succ hs] at this
    | fault f => simp [runSteps, hs] at h
    | refused r => simp [runSteps, hs] at h

/-- A sized scan over stable units runs within its computation. -/
theorem runsOn_sized {cf : Cfg} {s : State} (hcfg : s.cfg = cf) (h : StableScan .sized s)
    {us : List (BitVec cf.cu.bits)} (hlen : us.length < 2 ^ 64) (hrem : s.rem = BitVec.ofNat 64 us.length)
    (hus : UnitsAt s.view cf.cu s.ptr us) : RunsOn s (endScan { fedUnits cf us s with rem := 0 }) := by
  refine runsOn_of_runSteps (runSteps_sized_end hcfg h hlen hrem hus) fun j hj => ?_
  have hj : (us.take j).length = j := by rw [List.length_take]; omega
  have hle : (us.take j).length ≤ s.rem.toNat := by rw [hrem, BitVec.toNat_ofNat, Nat.mod_eq_of_lt hlen]; omega
  have hrun := runSteps_sized hcfg h hle (hus.take j)
  rw [hj] at hrun
  refine ⟨_, hrun, h.rst, fun hended => ?_⟩
  exact absurd (hended.1.symm.trans h.busy) nofun

theorem startsAnother_encode {i : Instr} (hwf : i.wellFormed = true) :
    startsAnother (encode i) = beginsComputation i := by
  rw [startsAnother, decodeOfEncode i hwf]

/-- Settles O59: the computation begins with the acceptance of HASHN, runs through its scan and ends with it. -/
theorem hashnComputationReachesItsEnd : Obligations.HashnComputationReachesItsEnd := by
  intro s cf start us rest hr hb hcf hp hrest hlen hus
  have hwf : (Instr.hashn cf start (BitVec.ofNat 64 us.length)).wellFormed = true := hcf
  have hstep := (step_of_encode hr hb hwf hp).trans (exec_hashn cf start _ _)
  have hbegins : Begins s _ := ⟨hstep, .inr ⟨hb, _, _, hp, startsAnother_encode hwf⟩⟩
  have hruns := runsOn_sized (cf := cf)
    (s := startScan .sized start (BitVec.ofNat 64 us.length) (beginComputation cf { s with pending := rest }))
    rfl ⟨hr, rfl, rfl, rfl⟩ hlen rfl hus
  refine ⟨_, ⟨_, hbegins, hruns, rfl, hrest⟩, ?_, rfl, rfl, rfl⟩
  show (accAt cf.w (us.foldl (feedAcc cf) (zext64 (basis cf.w)))).toNat = _
  rw [foldl_feedAcc_zext64, accAt_zext64, ← hashUnits_toNat, hashUnits]

end Sys2Proof.Machine
